-- ==== Sys2Proof/Word.lean ====
section
/-! DEFINITION. The machine's words, bytes, field elements and matrices as plain data
(00_scope.md R6, R7, R9, R11; 10_state.md R31, R35). -/

namespace Sys2Proof

/-- One byte of XB, of an encoding or of a message. -/
abbrev Byte := BitVec 8

/-- A command word or a 32-bit register of the host window (30_encoding.md R90). -/
abbrev Word := BitVec 32

/-- The Mersenne prime 2^127 − 1, the field modulus (00_scope.md R6). -/
def P : Nat := 0x7FFFFFFFFFFFFFFFFFFFFFFFFFFFFFFF

theorem P_pos : 0 < P := by decide

/-- A field element: a canonical value in [0, P) (40_field.md R125, 10_state.md R32). -/
abbrev Fe := Fin P

/-- The canonical representative of a natural number modulo P. -/
def Fe.ofNat (n : Nat) : Fe := ⟨n % P, Nat.mod_lt n P_pos⟩

/-- A 2×2 matrix [[a, b], [c, d]] over F, row-major (00_scope.md R11, 41_group.md R170).
Its determinant is not constrained (10_state.md R35). -/
structure Mat where
  a : Fe
  b : Fe
  c : Fe
  d : Fe
deriving DecidableEq, Repr

/-- A matrix from four small numbers, each reduced modulo P. -/
def Mat.ofNats (a b c d : Nat) : Mat := ⟨.ofNat a, .ofNat b, .ofNat c, .ofNat d⟩

end Sys2Proof
end

