-- ==== Sys2Proof/Syntax.lean ====
section
/-! DEFINITION. The commands, one constructor per row of spec/opcode_table.json
(30_encoding.md R95), with operands as the assembler names them (R93, R94, R99). -/

namespace Sys2Proof

/-- A field register index: F0..F15 (30_encoding.md R93). -/
abbrev FReg := Fin 16

/-- A matrix register index: M0..M3 (30_encoding.md R93). -/
abbrev MReg := Fin 4

/-- A 16-byte slot of XB: bytes 16·slot .. 16·slot+15 (30_encoding.md R94). -/
abbrev Slot := Fin 4

/-- A command of the core. The destination comes first, then the sources in order. -/
inductive Instr where
  | fadd (fd fs1 fs2 : FReg)
  | fsub (fd fs1 fs2 : FReg)
  | fmul (fd fs1 fs2 : FReg)
  | finv (fd fs : FReg)
  | feq (fs1 fs2 : FReg)
  | fdec (fd : FReg) (slot : Slot)
  | fenc (fs : FReg) (slot : Slot)
  | mid (md : MReg)
  | mmul (md ms1 ms2 : MReg)
  | minv (md ms : MReg)
  | meq (ms1 ms2 : MReg)
  | mchk (ms : MReg)
  | mdec (md : MReg)
  | menc (ms : MReg)
  | drst
  | dabs (byte : Byte)
  | dabsb (n : BitVec 7)
  | dsum
  | dget (md : MReg)
deriving DecidableEq, Repr

end Sys2Proof
end

