-- ==== Sys2Proof/WellFormed.lean ====
section
/-! DEFINITION. The one condition on operands that their types do not already carry:
DABSB absorbs at most 64 bytes (30_encoding.md R94, R96 (c)). -/

namespace Sys2Proof

/-- The count of a DABSB must satisfy n ≤ 64: values 65..127 are illegal (30_encoding.md R94). -/
def countOk (n : BitVec 7) : Bool := n.toNat ≤ 64

/-- A command whose word is legal (30_encoding.md R96). -/
def Instr.wf : Instr → Bool
  | .fadd _ _ _ => true
  | .fsub _ _ _ => true
  | .fmul _ _ _ => true
  | .finv _ _ => true
  | .feq _ _ => true
  | .fdec _ _ => true
  | .fenc _ _ => true
  | .mid _ => true
  | .mmul _ _ _ => true
  | .minv _ _ => true
  | .meq _ _ => true
  | .mchk _ => true
  | .mdec _ => true
  | .menc _ => true
  | .drst => true
  | .dabs _ => true
  | .dabsb n => countOk n
  | .dsum => true
  | .dget _ => true

end Sys2Proof
end

