-- ==== Sys2Proof/Decode.lean ====
section
/-! DEFINITION. The decoder, from the mask/match table of 30_encoding.md R95, total on every
32-bit word, and the encoder, from the formats of R91 and R92. -/

namespace Sys2Proof

/-- Why a word is illegal: the three cases of 30_encoding.md R96. -/
inductive IllegalReason where
  /-- (a) the opcode is not in the table -/
  | unlistedOpcode
  /-- (b) a must-be-zero bit is 1, a matrix index is 4..15, or a slot's upper bits are not 0 -/
  | fixedBits
  /-- (c) the row's extra constraint fails: DABSB with imm8 > 64 -/
  | constraint
deriving DecidableEq, Repr

/-! Fields of the command word (30_encoding.md R91, R93, R94). -/

def opField (w : Word) : BitVec 8 := w.extractLsb' 24 8
def immField (w : Word) : Byte := w.extractLsb' 0 8
def countField (w : Word) : BitVec 7 := w.extractLsb' 0 7
def slotField (w : Word) : Slot := (w.extractLsb' 0 2).toFin
def raF (w : Word) : FReg := (w.extractLsb' 20 4).toFin
def rbF (w : Word) : FReg := (w.extractLsb' 16 4).toFin
def rcF (w : Word) : FReg := (w.extractLsb' 12 4).toFin
def raM (w : Word) : MReg := (w.extractLsb' 20 2).toFin
def rbM (w : Word) : MReg := (w.extractLsb' 16 2).toFin
def rcM (w : Word) : MReg := (w.extractLsb' 12 2).toFin

/-- One row of the table of 30_encoding.md R95: `(w & mask) = pattern` selects the command,
subject to the extra constraint. -/
structure Row where
  pattern : Word
  mask : Word
  constraint : Word → Bool
  build : Word → Instr

/-- The row's opcode: bits 31:24 of its match value. -/
def Row.op (r : Row) : BitVec 8 := opField r.pattern

/-- The row covers the word: its mask and match agree and its constraint holds. -/
def Row.covers (r : Row) (w : Word) : Bool := w &&& r.mask == r.pattern && r.constraint w

/-- The mask/match table of 30_encoding.md R95, in the table's order. -/
def opcodeTable : List Row :=
  [ ⟨0x01000000, 0xFF000FFF, fun _ => true, fun w => .fadd (raF w) (rbF w) (rcF w)⟩,
    ⟨0x02000000, 0xFF000FFF, fun _ => true, fun w => .fsub (raF w) (rbF w) (rcF w)⟩,
    ⟨0x03000000, 0xFF000FFF, fun _ => true, fun w => .fmul (raF w) (rbF w) (rcF w)⟩,
    ⟨0x04000000, 0xFF00FFFF, fun _ => true, fun w => .finv (raF w) (rbF w)⟩,
    ⟨0x05000000, 0xFFF00FFF, fun _ => true, fun w => .feq (rbF w) (rcF w)⟩,
    ⟨0x06000000, 0xFF0FFFFC, fun _ => true, fun w => .fdec (raF w) (slotField w)⟩,
    ⟨0x07000000, 0xFFF0FFFC, fun _ => true, fun w => .fenc (rbF w) (slotField w)⟩,
    ⟨0x10000000, 0xFFCFFFFF, fun _ => true, fun w => .mid (raM w)⟩,
    ⟨0x11000000, 0xFFCCCFFF, fun _ => true, fun w => .mmul (raM w) (rbM w) (rcM w)⟩,
    ⟨0x12000000, 0xFFCCFFFF, fun _ => true, fun w => .minv (raM w) (rbM w)⟩,
    ⟨0x13000000, 0xFFFCCFFF, fun _ => true, fun w => .meq (rbM w) (rcM w)⟩,
    ⟨0x14000000, 0xFFFCFFFF, fun _ => true, fun w => .mchk (rbM w)⟩,
    ⟨0x15000000, 0xFFCFFFFF, fun _ => true, fun w => .mdec (raM w)⟩,
    ⟨0x16000000, 0xFFFCFFFF, fun _ => true, fun w => .menc (rbM w)⟩,
    ⟨0x20000000, 0xFFFFFFFF, fun _ => true, fun _ => .drst⟩,
    ⟨0x21000000, 0xFFFFFF00, fun _ => true, fun w => .dabs (immField w)⟩,
    ⟨0x22000000, 0xFFFFFF80, fun w => (immField w).toNat ≤ 64, fun w => .dabsb (countField w)⟩,
    ⟨0x23000000, 0xFFFFFFFF, fun _ => true, fun _ => .dsum⟩,
    ⟨0x24000000, 0xFFCFFFFF, fun _ => true, fun w => .dget (raM w)⟩ ]

/-- The row whose opcode is `op`, if there is one (30_encoding.md R101). -/
def rowOf (op : BitVec 8) : Option Row := opcodeTable.find? fun r => r.op == op

/-- Decode a command word, or say which case of 30_encoding.md R96 makes it illegal. -/
def decode (w : Word) : Except IllegalReason Instr :=
  match rowOf (opField w) with
  | none => .error .unlistedOpcode
  | some r =>
    if w &&& r.mask ≠ r.pattern then .error .fixedBits
    else if !r.constraint w then .error .constraint
    else .ok (r.build w)

/-- The instruction the decoder reads from a table row's word (30_encoding.md R90: every
command is one 32-bit word, so bits from `nbits` up are zero). -/
def decodeTableWord (nbits w : Nat) : Option Instr :=
  (decode (BitVec.ofNat 32 (w % 2 ^ nbits))).toOption

/-- A command word from its fields, `z` being always 0 (30_encoding.md R91). -/
def packWord (op : BitVec 8) (ra rb rc : BitVec 4) (imm8 : Byte) : Word :=
  op ++ ra ++ rb ++ rc ++ (0 : BitVec 4) ++ imm8

/-- A field register's 4-bit index. -/
def fIndex (r : FReg) : BitVec 4 := BitVec.ofNat 4 r.val

/-- A matrix register's 4-bit index: bits [3:2] are 0 (30_encoding.md R93). -/
def mIndex (r : MReg) : BitVec 4 := BitVec.ofNat 4 r.val

/-- The immediate of a slot: imm8[7:2] are 0 (30_encoding.md R94). -/
def slotImm (k : Slot) : Byte := BitVec.ofNat 8 k.val

/-- The word of a command, by its format (30_encoding.md R92, R95). -/
def encode : Instr → Word
  | .fadd fd fs1 fs2 => packWord 0x01 (fIndex fd) (fIndex fs1) (fIndex fs2) 0
  | .fsub fd fs1 fs2 => packWord 0x02 (fIndex fd) (fIndex fs1) (fIndex fs2) 0
  | .fmul fd fs1 fs2 => packWord 0x03 (fIndex fd) (fIndex fs1) (fIndex fs2) 0
  | .finv fd fs => packWord 0x04 (fIndex fd) (fIndex fs) 0 0
  | .feq fs1 fs2 => packWord 0x05 0 (fIndex fs1) (fIndex fs2) 0
  | .fdec fd slot => packWord 0x06 (fIndex fd) 0 0 (slotImm slot)
  | .fenc fs slot => packWord 0x07 0 (fIndex fs) 0 (slotImm slot)
  | .mid md => packWord 0x10 (mIndex md) 0 0 0
  | .mmul md ms1 ms2 => packWord 0x11 (mIndex md) (mIndex ms1) (mIndex ms2) 0
  | .minv md ms => packWord 0x12 (mIndex md) (mIndex ms) 0 0
  | .meq ms1 ms2 => packWord 0x13 0 (mIndex ms1) (mIndex ms2) 0
  | .mchk ms => packWord 0x14 0 (mIndex ms) 0 0
  | .mdec md => packWord 0x15 (mIndex md) 0 0 0
  | .menc ms => packWord 0x16 0 (mIndex ms) 0 0
  | .drst => packWord 0x20 0 0 0 0
  | .dabs byte => packWord 0x21 0 0 0 byte
  | .dabsb n => packWord 0x22 0 0 0 (n.setWidth 8)
  | .dsum => packWord 0x23 0 0 0 0
  | .dget md => packWord 0x24 (mIndex md) 0 0 0

end Sys2Proof
end

