-- ==== Sys2Proof/Config.lean ====
section
/-! DEFINITION. What the spec leaves open: the free values and the named parameters. Every
constant here is opaque, without a body: no proof can see what it is. -/

namespace Sys2Proof.Config

/-- The draws of 10_state.md R44 and 20_memory.md R78: the n-th unspecified byte, the same function
for every instance. DESIGN CHOICE (log 25). -/
opaque freeByte : Nat → Byte

/-- The n-th unspecified field-register content after a reset of a running machine
(10_state.md R33, 70_reset_and_hazards.md R291), reduced modulo P by its reader; the same function
for every instance. DESIGN CHOICE (log 25). -/
opaque freeElement : Nat → Nat

/-- BASE of instance k: the platform address of its register window (00_scope.md R6, 20_memory.md
R60). The spec names one BASE and says that each instance has its own window (60_exceptions.md
R273); that each window has its own BASE is the model's choice. DESIGN CHOICE (log 20). No rule
depends on it. -/
opaque base : Nat → Nat

/-- LAT_<mnemonic>: cycles from acceptance to BUSY = 0 (70_reset_and_hazards.md R306); it may
depend on the operands (DABSB). No rule depends on it. -/
opaque latency : Instr → Nat

/-- NUM_INSTANCES less one, so that the number is at least 1 (92_eei_decisions.md, OPEN). -/
opaque extraInstances : Nat

/-- NUM_INSTANCES: the number of core instances on the platform (60_exceptions.md R273). -/
def numInstances : Nat := extraInstances + 1

/-- The window offset of a platform address, if the address lies in the 128-byte window of
instance k (20_memory.md R60). -/
def windowOffset (k address : Nat) : Option Nat :=
  if base k ≤ address ∧ address < base k + 128 then some (address - base k) else none

end Sys2Proof.Config
end

