-- ==== Sys2Proof/Machine/FieldArith.lean ====
section
/-! DEFINITION. The arithmetic of F = GF(2^127 − 1) (00_scope.md R9, 40_field.md R120–R124), the
datapaths the spec gives for it, and the 16-byte encoding (40_field.md R130). -/

namespace Sys2Proof.Machine

/-- addF(x, y) = (x + y) mod P (40_field.md R120). -/
def addF (x y : Fe) : Fe := .ofNat (x.val + y.val)

/-- subF(x, y) = (x + (P − y)) mod P (00_scope.md R9, 40_field.md R121). -/
def subF (x y : Fe) : Fe := .ofNat (x.val + (P - y.val))

/-- mulF(x, y) = (x · y) mod P (40_field.md R122). -/
def mulF (x y : Fe) : Fe := .ofNat (x.val * y.val)

/-- negF(y) = (P − y) mod P (00_scope.md R9). -/
def negF (y : Fe) : Fe := .ofNat (P - y.val)

/-- x^e mod P for an exponent e below 2^bits, by square and multiply from its top bit. -/
def powMod (x : Nat) : Nat → Nat → Nat
  | 0, _ => 1
  | bits + 1, e => powMod x bits (e / 2) ^ 2 % P * (if e % 2 = 1 then x else 1) % P

/-- invF(x) = x^(P−2) mod P, Fermat's method: the source permits it, and every method gives the
unique inverse of x ≠ 0 (40_field.md R123). DEDUCED (log 17). -/
def invF (x : Fe) : Fe := .ofNat (powMod x.val 127 (P - 2))

/-! The conforming datapaths of 40_field.md R120–R122, as the spec writes them. -/

/-- The addition datapath: one conditional subtraction (40_field.md R120). -/
def addDatapath (x y : Nat) : Nat :=
  let s := x + y
  if s ≥ P then s - P else s

/-- The subtraction datapath (40_field.md R121). -/
def subDatapath (x y : Nat) : Nat :=
  let t := x + (P - y)
  if t ≥ P then t - P else t

/-- The Mersenne fold H + L of a product t = H · 2^127 + L (40_field.md R122). -/
def foldSum (t : Nat) : Nat := (t >>> 127) + (t &&& P)

/-- The multiplication datapath: exact product, fold, one conditional subtraction
(40_field.md R122). -/
def mulDatapath (x y : Nat) : Nat :=
  let r := foldSum (x * y)
  if r ≥ P then r - P else r

/-- enc16(x): 16 bytes, byte 0 most significant (40_field.md R130, 20_memory.md R64). -/
def enc16 (x : Fe) : List Byte :=
  (List.range 16).map fun i => BitVec.ofNat 8 (x.val >>> (8 * (15 - i)))

/-- The value of a big-endian byte string: the sum of bs[i] · 256^(n−1−i). -/
def beValue (bs : List Byte) : Nat := bs.foldl (fun v b => v * 256 + b.toNat) 0

/-- dec16(bs): fails (`none`) when the top bit is set or the value equals P (40_field.md R130).
With bs[0] < 0x80 a 16-byte value is below 2^127, so "v = P" is "v ≥ P". -/
def dec16 (bs : List Byte) : Option Fe :=
  if bs.headD 0 ≥ 0x80 then none
  else if h : beValue bs < P then some ⟨beValue bs, h⟩ else none

end Sys2Proof.Machine
end

