-- ==== Sys2Proof/Machine/State.lean ====
section
/-! DEFINITION. The state of one core instance as plain data (10_state.md R45), the inputs that
act on it, and the state right after reset (70_reset_and_hazards.md R291). -/

namespace Sys2Proof.Machine

/-- A register of the two register files, as UnwrittenRead names it (10_state.md R33). -/
inductive RegName where
  | f (r : FReg)
  | m (r : MReg)
deriving DecidableEq, Repr

/-- Why the machine itself would stop with a fault: no rule of the spec makes it. An error of a
command is latched in ERRCODE and is a next state (60_exceptions.md R262); an UnwrittenRead is a
record in the fault list, after which the core takes no step and the host's accesses and resets
still act (60_exceptions.md R276, 70_reset_and_hazards.md R290). -/
inductive Fault where
deriving DecidableEq, Repr

/-- Why the model gives no step. -/
inductive Refusal where
  /-- Raised by `exec` for a command without a meaning; no arm raises it. Safe: the model stops. -/
  | notModelled (mnemonic : String)
  /-- Raised by a host access outside 20_memory.md R62 (offset and width), which that rule asks a
  model to refuse. Safe: the model stops where the spec defines nothing. -/
  | undefinedAccess (bits offset : Nat)
deriving DecidableEq, Repr

/-- The model fault UnwrittenRead(reg) with its command word (60_exceptions.md R276). -/
structure ModelFault where
  reg : RegName
  word : Word
deriving DecidableEq, Repr

/-- A register with the record R33 asks for: has it been written since the last reset? -/
structure Reg (α : Type) where
  val : α
  written : Bool
deriving DecidableEq, Repr

/-- XB as a list of (address, byte), addresses strictly rising. An unlisted address holds no
byte: it has not been written since reset (10_state.md R44, R45). -/
abbrev Memory := List Host.Cell

/-- One access of the host to the register window: the width in bits and the window offset
(20_memory.md R61, R62). A write carries a 32-bit bus value; an 8-bit write uses its low byte. -/
inductive HostAccess where
  | read (bits offset : Nat)
  | write (bits offset : Nat) (value : Word)
deriving DecidableEq, Repr

/-- What acts on the core next, in the one total order of 20_memory.md R70. -/
inductive Input where
  /-- a host access (20_memory.md R61–R63) -/
  | access (a : HostAccess)
  /-- the platform's hard-reset input (70_reset_and_hazards.md R290) -/
  | hardReset
  /-- the core's turn: it executes its pending command, if there is one (10_state.md R41) -/
  | coreTurn
deriving DecidableEq, Repr

/-- The value a host read returns: 32 bits from a register, 8 bits from an XB byte. -/
inductive ReadValue where
  | word (w : Word)
  | byte (b : Byte)
deriving DecidableEq, Repr

/-- The state of one core instance (10_state.md R45); the last three fields are the model's own. -/
structure State where
  /-- F0..F15 (10_state.md R31) -/
  f : Vector (Reg Fe) 16
  /-- M0..M3 (10_state.md R35) -/
  m : Vector (Reg Mat) 4
  /-- S, the digest state (10_state.md R36) -/
  digest : Mat
  /-- XB, the transfer buffer (10_state.md R44) -/
  xb : Memory
  /-- the pending command; BUSY is its presence (10_state.md R41) -/
  pend : Option Word
  /-- STATUS.EQ (10_state.md R34) -/
  eqFlag : Bool
  /-- STATUS.OVR (20_memory.md R77) -/
  ovr : Bool
  /-- STATUS.ERRCODE (60_exceptions.md R260) -/
  errcode : BitVec 4
  /-- ERRCMD (10_state.md R38) -/
  errcmd : Word
  /-- the UnwrittenRead records, oldest first (60_exceptions.md R276) -/
  faults : List ModelFault
  /-- the model's own: what acts next, first first; when empty, the core has the turn (log 8) -/
  inputs : List Input
  /-- the model's own: the index of the next free value (log 7) -/
  draws : Nat
  /-- the model's own: the value the last host read returned (log 10) -/
  readData : Option ReadValue
deriving DecidableEq, Repr

/-- The identity matrix I2 = (1, 0, 0, 1) (00_scope.md R11). -/
def I2 : Mat := .ofNats 1 0 0 1

/-- The state right after reset (70_reset_and_hazards.md R291). The values of F and M, which
the spec leaves unspecified, are zero here, marked unwritten. DESIGN CHOICE, unsafe (log 1, 2). -/
def State.reset : State where
  f := Vector.replicate 16 ⟨.ofNat 0, false⟩
  m := Vector.replicate 4 ⟨.ofNats 0 0 0 0, false⟩
  digest := I2
  xb := []
  pend := none
  eqFlag := false
  ovr := false
  errcode := 0
  errcmd := 0
  faults := []
  inputs := []
  draws := 0
  readData := none

end Sys2Proof.Machine
end

