-- ==== Sys2Proof/Machine/MatrixArith.lean ====
section
/-! DEFINITION. Matrix arithmetic over F and the 64-byte encoding (41_group.md R170–R180), and
the absorption of bits and bytes (42_digest.md R210–R214). -/

namespace Sys2Proof.Machine

/-- The standard matrix product M · N (41_group.md R171). -/
def mulM (M N : Mat) : Mat where
  a := addF (mulF M.a N.a) (mulF M.b N.c)
  b := addF (mulF M.a N.b) (mulF M.b N.d)
  c := addF (mulF M.c N.a) (mulF M.d N.c)
  d := addF (mulF M.c N.b) (mulF M.d N.d)

/-- det(X) = a·d − b·c (41_group.md R173). -/
def det (X : Mat) : Fe := subF (mulF X.a X.d) (mulF X.b X.c)

/-- The inverse of a matrix of determinant 1: [[d, −b], [−c, a]] (41_group.md R174). -/
def inv2 (X : Mat) : Mat := ⟨X.d, negF X.b, negF X.c, X.a⟩

/-- enc64(X) = enc16(a) ‖ enc16(b) ‖ enc16(c) ‖ enc16(d) (41_group.md R180). -/
def enc64 (X : Mat) : List Byte := enc16 X.a ++ enc16 X.b ++ enc16 X.c ++ enc16 X.d

/-- The k-th 16-byte block of a byte string. -/
def block16 (bs : List Byte) (k : Nat) : List Byte := (bs.drop (16 * k)).take 16

/-- dec64(bs): the four blocks decoded; fails if any one of them fails (41_group.md R180). -/
def dec64 (bs : List Byte) : Option Mat :=
  match dec16 (block16 bs 0), dec16 (block16 bs 1), dec16 (block16 bs 2), dec16 (block16 bs 3) with
  | some a, some b, some c, some d => some ⟨a, b, c, d⟩
  | _, _, _, _ => none

/-- Generator A = [[1, 1], [0, 1]], for bit 0 (42_digest.md R210). -/
def GA : Mat := .ofNats 1 1 0 1

/-- Generator B = [[1, 0], [1, 1]], for bit 1 (42_digest.md R210). -/
def GB : Mat := .ofNats 1 0 1 1

/-- G_b (42_digest.md R210). -/
def generator (b : Bool) : Mat := if b then GB else GA

/-- Absorb one bit: S ← S · G_b (42_digest.md R211). -/
def absorbBit (S : Mat) (b : Bool) : Mat := mulM S (generator b)

/-- The generator datapath: two field additions a bit (42_digest.md R212). -/
def absorbBitDatapath (S : Mat) (b : Bool) : Mat :=
  if b then ⟨addF S.a S.b, S.b, addF S.c S.d, S.d⟩
  else ⟨S.a, addF S.a S.b, S.c, addF S.c S.d⟩

/-- Absorb one byte, bit 7 first and bit 0 last (42_digest.md R213). -/
def absorbByte (S : Mat) (v : Byte) : Mat :=
  [7, 6, 5, 4, 3, 2, 1, 0].foldl (fun T i => absorbBit T (v.getLsbD i)) S

/-- Absorb a byte string in string order (42_digest.md R214). -/
def absorb (S : Mat) (bs : List Byte) : Mat := bs.foldl absorbByte S

end Sys2Proof.Machine
end

