-- ==== Sys2Proof/Machine/Ops.lean ====
section
/-! DEFINITION. The named operations over XB, the registers and the status fields; raising an
error (60_exceptions.md R262) and returning from one (R266); reset (70_reset_and_hazards.md R291). -/

namespace Sys2Proof.Machine

/-! The byte memory. -/

/-- The byte an address holds, `none` when nothing has written it since reset. -/
def Memory.read : Memory → Nat → Option Byte
  | [], _ => none
  | (a, b) :: m, k => if a = k then some b else Memory.read m k

/-- The memory with one byte written, addresses kept strictly rising. -/
def Memory.write : Memory → Nat → Byte → Memory
  | [], k, v => [(k, v)]
  | (a, b) :: m, k, v =>
    if k < a then (k, v) :: (a, b) :: m
    else if k = a then (k, v) :: m
    else (a, b) :: Memory.write m k v

/-- MemWrite(k, n, bs) on the memory: XB[k+i] ← bs[i] (00_scope.md R8). -/
def Memory.writeBytes : Memory → Nat → List Byte → Memory
  | m, _, [] => m
  | m, k, b :: bs => Memory.writeBytes (Memory.write m k b) (k + 1) bs

/-- The canonical form: addresses strictly rising, all of them XB's (0..63). No entry equals
what an unlisted address reads as, since an unlisted address holds no byte. -/
abbrev Memory.wf (m : Memory) : Prop :=
  m.Pairwise (fun x y => x.1 < y.1) ∧ ∀ c ∈ m, c.1 < 64

/-! Reading XB. -/

/-- MemRead(k, n) (00_scope.md R8). A byte nothing has written since reset reads as a draw, a
fresh one at every read (10_state.md R44, log 5). -/
def State.memRead (s : State) (k n : Nat) : List Byte :=
  (List.range n).map fun i => (s.xb.read (k + i)).getD (Config.freeByte (s.draws + i))

/-- The state after n bytes were read: their draws are used up. -/
def State.drew (s : State) (n : Nat) : State := { s with draws := s.draws + n }

/-- MemWrite(k, n, bs) (00_scope.md R8); bytes outside are unchanged (20_memory.md R67). -/
def State.memWrite (s : State) (k : Nat) (bs : List Byte) : State :=
  { s with xb := s.xb.writeBytes k bs }

/-! Registers. -/

/-- F[r] (00_scope.md R8). -/
def State.readF (s : State) (r : FReg) : Fe := s.f[r].val

/-- M[r] (00_scope.md R8). -/
def State.readM (s : State) (r : MReg) : Mat := s.m[r].val

/-- F[r] ← v; the register counts as written (10_state.md R33). -/
def State.writeF (s : State) (r : FReg) (v : Fe) : State := { s with f := s.f.set r ⟨v, true⟩ }

/-- M[r] ← v; the register counts as written (10_state.md R33). -/
def State.writeM (s : State) (r : MReg) (v : Mat) : State := { s with m := s.m.set r ⟨v, true⟩ }

/-- S ← v (10_state.md R36). -/
def State.setDigest (s : State) (v : Mat) : State := { s with digest := v }

/-- Has the register been written since the last reset (10_state.md R33)? -/
def State.written (s : State) : RegName → Bool
  | .f r => s.f[r].written
  | .m r => s.m[r].written

/-- Record UnwrittenRead(r) with its command word and stop: the command gets no result, and its core
step ends as every core step does, with pend ← none (10_state.md R33, R41, 60_exceptions.md R276). -/
def State.recordUnwritten (s : State) (r : RegName) (w : Word) : State :=
  { s with faults := s.faults ++ [⟨r, w⟩], pend := none }

/-- The check before a command of word w runs that reads these registers: at the first one not
written since reset it records the fault and stops; else the command's effect, t, happens
(30_encoding.md R101, 60_exceptions.md R264). -/
def State.checkReads (s : State) (w : Word) (regs : List RegName) (t : State) : State :=
  match regs.find? fun r => !s.written r with
  | some r => s.recordUnwritten r w
  | none => t

/-! Ending a command. -/

/-- The error kinds (60_exceptions.md R260). -/
inductive ErrorKind where
  | malformedEncoding
  | invalidArgument
  | illegalCommand
deriving DecidableEq, Repr

/-- The code of an error kind in STATUS.ERRCODE (60_exceptions.md R260). -/
def ErrorKind.code : ErrorKind → BitVec 4
  | .malformedEncoding => 1
  | .invalidArgument => 2
  | .illegalCommand => 3

/-- The command ends normally: pend ← none, so BUSY reads 0 (10_state.md R41). -/
def State.complete (s : State) : State := { s with pend := none }

/-- The command w ends by raising an error: the whole of error entry (60_exceptions.md R262). -/
def State.raise (s : State) (e : ErrorKind) (w : Word) : State :=
  { s with errcode := e.code, errcmd := w, pend := none }

/-- Error return, CTRL.CLRERR: ERRCODE, ERRCMD and OVR are cleared (60_exceptions.md R266). -/
def State.clearErrors (s : State) : State := { s with errcode := 0, errcmd := 0, ovr := false }

/-! Reset. -/

/-- The k-th unspecified field element (10_state.md R33). -/
def freeFe (k : Nat) : Fe := .ofNat (Config.freeElement k)

/-- F after a reset of a running machine: unspecified values, marked unwritten (log 4). -/
def freeF (k : Nat) : Vector (Reg Fe) 16 := Vector.ofFn fun i => ⟨freeFe (k + i.val), false⟩

/-- M after a reset of a running machine: unspecified values, marked unwritten (log 4). -/
def freeM (k : Nat) : Vector (Reg Mat) 4 :=
  Vector.ofFn fun i =>
    ⟨⟨freeFe (k + 4 * i.val), freeFe (k + 4 * i.val + 1), freeFe (k + 4 * i.val + 2),
      freeFe (k + 4 * i.val + 3)⟩, false⟩

/-- The effect of a soft or hard reset (70_reset_and_hazards.md R290, R291). The fault list is
kept; F and M hold free values. The host's further inputs and its last read are not the core's. -/
def State.resetCore (s : State) : State :=
  { s with
    f := freeF s.draws, m := freeM (s.draws + 16), digest := I2, xb := [], pend := none,
    eqFlag := false, ovr := false, errcode := 0, errcmd := 0, draws := s.draws + 32 }

end Sys2Proof.Machine
end

