-- ==== Sys2Proof/Machine/Flags.lean ====
section
/-! DEFINITION. STATUS: its fields, the word the host reads, and the one condition flag EQ
(10_state.md R34, R37). -/

namespace Sys2Proof.Machine

/-- The model state is faulted: some command read an unwritten register (60_exceptions.md R276). -/
def State.faulted (s : State) : Bool := !s.faults.isEmpty

/-- STATUS.BUSY: 1 exactly when a command is pending (10_state.md R41). -/
def State.busy (s : State) : Bool := s.pend.isSome

/-- The 32-bit STATUS word: bits 31:8 zero, ERRCODE 7:4, bit 3 zero, OVR, EQ, BUSY
(10_state.md R37). -/
def State.statusWord (s : State) : Word :=
  (0 : BitVec 24) ++ s.errcode ++ (0 : BitVec 1) ++ BitVec.ofBool s.ovr ++ BitVec.ofBool s.eqFlag ++
    BitVec.ofBool s.busy

/-- STATUS.EQ ← v (00_scope.md R8, 10_state.md R34). -/
def State.setEq (s : State) (v : Bool) : State := { s with eqFlag := v }

/-- STATUS.OVR ← 1 (20_memory.md R77). -/
def State.setOvr (s : State) : State := { s with ovr := true }

/-- FEQ's test: equality of canonical values (40_field.md R144). -/
def eqTestF (x y : Fe) : Bool := x == y

/-- MEQ's test: equality of the four entries (41_group.md R193). -/
def eqTestM (X Y : Mat) : Bool := X.a == Y.a && X.b == Y.b && X.c == Y.c && X.d == Y.d

/-- The determinant test of MINV and MCHK: det(X) = 1 (41_group.md R192, R194). -/
def detIsOne (X : Mat) : Bool := det X == .ofNat 1

end Sys2Proof.Machine
end

