-- ==== Sys2Proof/Machine/Operands.lean ====
section
/-! DEFINITION. The operand forms that reach XB: a slot, the whole buffer, a prefix
(20_memory.md R67, 30_encoding.md R94). -/

namespace Sys2Proof.Machine

/-- The XB offset of a slot: 16 · slot (30_encoding.md R94). -/
def slotOffset (k : Slot) : Nat := 16 * k.val

/-- The 16 bytes of a slot: MemRead(16·slot, 16) (40_field.md R145). -/
def State.slotBytes (s : State) (k : Slot) : List Byte := s.memRead (slotOffset k) 16

/-- All of XB: MemRead(0, 64) (41_group.md R195). -/
def State.bufferBytes (s : State) : List Byte := s.memRead 0 64

/-- The first n bytes of XB: MemRead(0, n) (42_digest.md R222). -/
def State.prefixBytes (s : State) (n : BitVec 7) : List Byte := s.memRead 0 n.toNat

/-- An address of a slot. -/
def inSlot (k : Slot) (a : Nat) : Bool := slotOffset k ≤ a && a < slotOffset k + 16

/-- The XB addresses a command writes (the table of 20_memory.md R67). -/
def writesXB : Instr → Nat → Bool
  | .fenc _ k, a => inSlot k a
  | .menc _, a | .dsum, a => a < 64
  | .fadd .., _ | .fsub .., _ | .fmul .., _ | .finv .., _ | .feq .., _ | .fdec .., _ => false
  | .mid .., _ | .mmul .., _ | .minv .., _ | .meq .., _ | .mchk .., _ | .mdec .., _ => false
  | .drst, _ | .dabs _, _ | .dabsb _, _ | .dget _, _ => false

/-- The XB addresses a command reads (the table of 20_memory.md R67). -/
def readsXB : Instr → Nat → Bool
  | .fdec _ k, a => inSlot k a
  | .mdec _, a => a < 64
  | .dabsb n, a => a < n.toNat
  | .fadd .., _ | .fsub .., _ | .fmul .., _ | .finv .., _ | .feq .., _ | .fenc .., _ => false
  | .mid .., _ | .mmul .., _ | .minv .., _ | .meq .., _ | .mchk .., _ | .menc .., _ => false
  | .drst, _ | .dabs _, _ | .dsum, _ | .dget _, _ => false

/-- The field register a command writes, if any (10_state.md R31). -/
def destF : Instr → Option FReg
  | .fadd fd _ _ | .fsub fd _ _ | .fmul fd _ _ | .finv fd _ | .fdec fd _ => some fd
  | .feq .. | .fenc .. | .mid .. | .mmul .. | .minv .. | .meq .. | .mchk .. | .mdec .. => none
  | .menc .. | .drst | .dabs _ | .dabsb _ | .dsum | .dget _ => none

/-- The matrix register a command writes, if any (10_state.md R35). -/
def destM : Instr → Option MReg
  | .mid md | .mmul md _ _ | .minv md _ | .mdec md | .dget md => some md
  | .fadd .. | .fsub .. | .fmul .. | .finv .. | .feq .. | .fdec .. | .fenc .. => none
  | .meq .. | .mchk .. | .menc .. | .drst | .dabs _ | .dabsb _ | .dsum => none

/-- The registers a command reads, in operand order (10_state.md R31, R35). -/
def readsRegs : Instr → List RegName
  | .fadd _ a b | .fsub _ a b | .fmul _ a b | .feq a b => [.f a, .f b]
  | .finv _ a | .fenc a _ => [.f a]
  | .mmul _ a b | .meq a b => [.m a, .m b]
  | .minv _ a | .mchk a | .menc a => [.m a]
  | .fdec .. | .mid _ | .mdec _ | .drst | .dabs _ | .dabsb _ | .dsum | .dget _ => []

end Sys2Proof.Machine
end

