-- ==== Sys2Proof/Machine/Digest.lean ====
section
/-! DEFINITION. The meanings of the digest unit's commands (42_digest.md R220–R224). -/

namespace Sys2Proof.Machine

open Host (Outcome)

/-- DRST: S ← I2 (42_digest.md R220). -/
def execDrst (s : State) : Outcome State Fault Refusal := .next ((s.setDigest I2).complete)

/-- DABS: S ← absorbByte(S, byte) (42_digest.md R221). -/
def execDabs (byte : Byte) (s : State) : Outcome State Fault Refusal :=
  .next ((s.setDigest (absorbByte s.digest byte)).complete)

/-- DABSB: S ← absorb(S, XB[0..n−1]); IllegalCommand when n > 64 (42_digest.md R222). -/
def execDabsb (n : BitVec 7) (s : State) : Outcome State Fault Refusal :=
  .next (if countOk n then
      ((s.drew n.toNat).setDigest (absorb s.digest (s.prefixBytes n))).complete
    else s.raise .illegalCommand (encode (.dabsb n)))

/-- DSUM: XB ← enc64(S); S is unchanged (42_digest.md R223). -/
def execDsum (s : State) : Outcome State Fault Refusal :=
  .next ((s.memWrite 0 (enc64 s.digest)).complete)

/-- DGET: M[md] ← S; S is unchanged (42_digest.md R224). -/
def execDget (md : MReg) (s : State) : Outcome State Fault Refusal :=
  .next ((s.writeM md s.digest).complete)

end Sys2Proof.Machine
end

