-- ==== Sys2Proof/Machine/Field.lean ====
section
/-! DEFINITION. The meanings of the field unit's commands (40_field.md R140–R146). Each reads its
sources before it writes, once they are known to be written (30_encoding.md R101). -/

namespace Sys2Proof.Machine

open Host (Outcome)

/-- FADD: F[fd] ← addF(F[fs1], F[fs2]) (40_field.md R140). -/
def execFadd (fd fs1 fs2 : FReg) (s : State) : Outcome State Fault Refusal :=
  .next (s.checkReads (encode (.fadd fd fs1 fs2)) [.f fs1, .f fs2]
    (s.writeF fd (addF (s.readF fs1) (s.readF fs2))).complete)

/-- FSUB: F[fd] ← subF(F[fs1], F[fs2]) (40_field.md R141). -/
def execFsub (fd fs1 fs2 : FReg) (s : State) : Outcome State Fault Refusal :=
  .next (s.checkReads (encode (.fsub fd fs1 fs2)) [.f fs1, .f fs2]
    (s.writeF fd (subF (s.readF fs1) (s.readF fs2))).complete)

/-- FMUL: F[fd] ← mulF(F[fs1], F[fs2]) (40_field.md R142). -/
def execFmul (fd fs1 fs2 : FReg) (s : State) : Outcome State Fault Refusal :=
  .next (s.checkReads (encode (.fmul fd fs1 fs2)) [.f fs1, .f fs2]
    (s.writeF fd (mulF (s.readF fs1) (s.readF fs2))).complete)

/-- FINV: InvalidArgument when F[fs] = 0, else F[fd] ← invF(F[fs]) (40_field.md R143). -/
def execFinv (fd fs : FReg) (s : State) : Outcome State Fault Refusal :=
  let w := encode (.finv fd fs)
  .next (s.checkReads w [.f fs]
    (if (s.readF fs).val = 0 then s.raise .invalidArgument w
    else (s.writeF fd (invF (s.readF fs))).complete))

/-- FEQ: STATUS.EQ ← (F[fs1] = F[fs2]) (40_field.md R144). -/
def execFeq (fs1 fs2 : FReg) (s : State) : Outcome State Fault Refusal :=
  .next (s.checkReads (encode (.feq fs1 fs2)) [.f fs1, .f fs2]
    (s.setEq (eqTestF (s.readF fs1) (s.readF fs2))).complete)

/-- FDEC: F[fd] ← dec16 of the slot's bytes, or MalformedEncoding (40_field.md R145). -/
def execFdec (fd : FReg) (slot : Slot) (s : State) : Outcome State Fault Refusal :=
  .next (match dec16 (s.slotBytes slot) with
    | some v => ((s.drew 16).writeF fd v).complete
    | none => (s.drew 16).raise .malformedEncoding (encode (.fdec fd slot)))

/-- FENC: the slot's bytes ← enc16(F[fs]) (40_field.md R146). -/
def execFenc (fs : FReg) (slot : Slot) (s : State) : Outcome State Fault Refusal :=
  .next (s.checkReads (encode (.fenc fs slot)) [.f fs]
    (s.memWrite (slotOffset slot) (enc16 (s.readF fs))).complete)

end Sys2Proof.Machine
end

