-- ==== Sys2Proof/Machine/Matrix.lean ====
section
/-! DEFINITION. The meanings of the matrix unit's commands (41_group.md R190–R196). -/

namespace Sys2Proof.Machine

open Host (Outcome)

/-- MID: M[md] ← I2 (41_group.md R190). -/
def execMid (md : MReg) (s : State) : Outcome State Fault Refusal :=
  .next ((s.writeM md I2).complete)

/-- MMUL: M[md] ← M[ms1] · M[ms2] (41_group.md R191). -/
def execMmul (md ms1 ms2 : MReg) (s : State) : Outcome State Fault Refusal :=
  .next (s.checkReads (encode (.mmul md ms1 ms2)) [.m ms1, .m ms2]
    (s.writeM md (mulM (s.readM ms1) (s.readM ms2))).complete)

/-- MINV: InvalidArgument when det ≠ 1, else M[md] ← inv2(M[ms]) (41_group.md R192). -/
def execMinv (md ms : MReg) (s : State) : Outcome State Fault Refusal :=
  let w := encode (.minv md ms)
  .next (s.checkReads w [.m ms]
    (if detIsOne (s.readM ms) then (s.writeM md (inv2 (s.readM ms))).complete
    else s.raise .invalidArgument w))

/-- MEQ: STATUS.EQ ← (M[ms1] = M[ms2]) (41_group.md R193). -/
def execMeq (ms1 ms2 : MReg) (s : State) : Outcome State Fault Refusal :=
  .next (s.checkReads (encode (.meq ms1 ms2)) [.m ms1, .m ms2]
    (s.setEq (eqTestM (s.readM ms1) (s.readM ms2))).complete)

/-- MCHK: STATUS.EQ ← (det(M[ms]) = 1) (41_group.md R194). -/
def execMchk (ms : MReg) (s : State) : Outcome State Fault Refusal :=
  .next (s.checkReads (encode (.mchk ms)) [.m ms] (s.setEq (detIsOne (s.readM ms))).complete)

/-- MDEC: M[md] ← dec64(XB), or MalformedEncoding; no determinant check (41_group.md R195). -/
def execMdec (md : MReg) (s : State) : Outcome State Fault Refusal :=
  .next (match dec64 s.bufferBytes with
    | some X => ((s.drew 64).writeM md X).complete
    | none => (s.drew 64).raise .malformedEncoding (encode (.mdec md)))

/-- MENC: XB ← enc64(M[ms]) (41_group.md R196). -/
def execMenc (ms : MReg) (s : State) : Outcome State Fault Refusal :=
  .next (s.checkReads (encode (.menc ms)) [.m ms]
    (s.memWrite 0 (enc64 (s.readM ms))).complete)

end Sys2Proof.Machine
end

