-- ==== Sys2Proof/Machine/Dispatch.lean ====
section
/-! DEFINITION. One command: each constructor's meaning (30_encoding.md R101). -/

namespace Sys2Proof.Machine

def exec (i : Instr) (s : State) : Host.Outcome State Fault Refusal :=
  match i with
  | .fadd fd fs1 fs2 => Sys2Proof.Machine.execFadd fd fs1 fs2 s
  | .fsub fd fs1 fs2 => Sys2Proof.Machine.execFsub fd fs1 fs2 s
  | .fmul fd fs1 fs2 => Sys2Proof.Machine.execFmul fd fs1 fs2 s
  | .finv fd fs => Sys2Proof.Machine.execFinv fd fs s
  | .feq fs1 fs2 => Sys2Proof.Machine.execFeq fs1 fs2 s
  | .fdec fd slot => Sys2Proof.Machine.execFdec fd slot s
  | .fenc fs slot => Sys2Proof.Machine.execFenc fs slot s
  | .mid md => Sys2Proof.Machine.execMid md s
  | .mmul md ms1 ms2 => Sys2Proof.Machine.execMmul md ms1 ms2 s
  | .minv md ms => Sys2Proof.Machine.execMinv md ms s
  | .meq ms1 ms2 => Sys2Proof.Machine.execMeq ms1 ms2 s
  | .mchk ms => Sys2Proof.Machine.execMchk ms s
  | .mdec md => Sys2Proof.Machine.execMdec md s
  | .menc ms => Sys2Proof.Machine.execMenc ms s
  | .drst => Sys2Proof.Machine.execDrst s
  | .dabs byte => Sys2Proof.Machine.execDabs byte s
  | .dabsb n => Sys2Proof.Machine.execDabsb n s
  | .dsum => Sys2Proof.Machine.execDsum s
  | .dget md => Sys2Proof.Machine.execDget md s

end Sys2Proof.Machine
end

