-- ==== Sys2Proof/Machine/HostBus.lean ====
section
/-! DEFINITION. What acts on the core: a host access to the register window (20_memory.md
R61–R63, R68, R77, R78), a hard reset (70_reset_and_hazards.md R290), the core's turn
(10_state.md R41). -/

namespace Sys2Proof.Machine

open Host (Outcome)

/-- What a defined access reaches (20_memory.md R61). -/
inductive Target where
  | cmd
  | status
  | ctrl
  | errcmd
  | xb (k : Fin 64)
deriving DecidableEq, Repr

/-- The target of an access of this width at this window offset; `none` when 20_memory.md R62
does not define the pair. -/
def targetOf (bits offset : Nat) : Option Target :=
  if bits = 32 then
    if offset = 0x00 then some .cmd
    else if offset = 0x04 then some .status
    else if offset = 0x08 then some .ctrl
    else if offset = 0x0C then some .errcmd
    else none
  else if bits = 8 then
    if h : offset - 0x40 < 64 ∧ 0x40 ≤ offset then some (.xb ⟨offset - 0x40, h.1⟩) else none
  else none

/-- A host read returns a value. -/
def State.reply (s : State) (v : ReadValue) : State := { s with readData := some v }

/-- The byte a host read of XB[k] returns: while a command is pending a draw, independent of XB
(20_memory.md R78); else the byte, or a draw if nothing has written it (10_state.md R44). -/
def State.hostByte (s : State) (k : Nat) : Byte :=
  if s.busy then Config.freeByte s.draws else (s.xb.read k).getD (Config.freeByte s.draws)

/-- A host read (20_memory.md R61, R63, R78). -/
def hostRead (t : Target) (s : State) : State :=
  match t with
  | .cmd => s.reply (.word 0)
  | .status => s.reply (.word s.statusWord)
  | .ctrl => s.reply (.word 0)
  | .errcmd => s.reply (.word s.errcmd)
  | .xb k => (s.drew 1).reply (.byte (s.hostByte k.val))

/-- Put an accepted command in its place: pend ← some w (10_state.md R41). -/
def State.accept (s : State) (w : Word) : State := { s with pend := some w }

/-- A write to CMD: dropped with OVR while busy, discarded while an error is latched, else
accepted (20_memory.md R68). -/
def writeCmd (w : Word) (s : State) : State :=
  if s.busy then s.setOvr else if s.errcode ≠ 0 then s else s.accept w

/-- A write to CTRL: dropped with OVR while busy; SRST (bit 0) resets, else CLRERR (bit 1)
clears the error; other bits are ignored (10_state.md R39). -/
def writeCtrl (v : Word) (s : State) : State :=
  if s.busy then s.setOvr
  else if v.getLsbD 0 then s.resetCore
  else if v.getLsbD 1 then s.clearErrors
  else s

/-- A write to XB[k]: dropped with OVR while busy (20_memory.md R77). -/
def writeXB (k : Nat) (b : Byte) (s : State) : State :=
  if s.busy then s.setOvr else s.memWrite k [b]

/-- A host write (20_memory.md R61, R63). Writes to STATUS and ERRCMD have no effect. -/
def hostWrite (t : Target) (v : Word) (s : State) : State :=
  match t with
  | .cmd => writeCmd v s
  | .status => s
  | .ctrl => writeCtrl v s
  | .errcmd => s
  | .xb k => writeXB k.val (v.setWidth 8) s

/-- A host access; one that 20_memory.md R62 does not define is refused. -/
def hostAccess (a : HostAccess) (s : State) : Outcome State Fault Refusal :=
  match a with
  | .read bits offset =>
    match targetOf bits offset with
    | some t => .next (hostRead t s)
    | none => .refused (.undefinedAccess bits offset)
  | .write bits offset v =>
    match targetOf bits offset with
    | some t => .next (hostWrite t v s)
    | none => .refused (.undefinedAccess bits offset)

/-- Execute a command word: decode it, raise IllegalCommand if it is illegal, else run it
(30_encoding.md R101, R96). -/
def execute (w : Word) (s : State) : Outcome State Fault Refusal :=
  match decode w with
  | .error _ => .next (s.raise .illegalCommand w)
  | .ok i => exec i s

/-- The core's turn: it executes its pending word in one atomic step; with none it is idle, and
idling changes nothing (10_state.md R41, 60_exceptions.md R275). In a faulted state the turn passes
without a core step, by 60_exceptions.md R276, the exception to 70_reset_and_hazards.md R305's
progress (log 3). -/
def coreStep (s : State) : Outcome State Fault Refusal :=
  match s.pend with
  | some w => if s.faulted then .next s else execute w s
  | none => .next s

/-- One input takes effect. -/
def takeInput (x : Input) (s : State) : Outcome State Fault Refusal :=
  match x with
  | .access a => hostAccess a s
  | .hardReset => .next s.resetCore
  | .coreTurn => coreStep s

/-- The state whose first input is gone. -/
def State.withInputs (s : State) (l : List Input) : State := { s with inputs := l }

/-- The state in which the word is the pending command and the core has the next turn. -/
def State.placed (s : State) (w : Word) : State :=
  { s with pend := some w, inputs := .coreTurn :: s.inputs }

end Sys2Proof.Machine
end

