-- ==== Sys2Proof/Machine/Step.lean ====
section
/-! DEFINITION. One step: the next input of the total order takes effect (20_memory.md R70); with
no input left, the core has the turn (70_reset_and_hazards.md R305). -/

namespace Sys2Proof.Machine

def step (s : State) : Host.Outcome State Fault Refusal :=
  match s.inputs with
  | [] => coreStep s
  | x :: rest => takeInput x (s.withInputs rest)

/-- `s` with the word as its accepted, pending command and the core's turn next, so that the very
next step executes it: a command is the word written to CMD (10_state.md R40, R41; log 9). -/
def State.withFetchWord (s : State) (nbits w : Nat) : State :=
  s.placed (BitVec.ofNat 32 (w % 2 ^ nbits))

end Sys2Proof.Machine
end

