-- ==== Sys2Proof/Machine/Platform.lean ====
section
/-! DEFINITION. Several core instances on one platform (60_exceptions.md R273): each has all of
its own state, and they share nothing. -/

namespace Sys2Proof.Machine

/-- The states of n independent instances. -/
abbrev Instances (n : Nat) := Vector State n

/-- The platform's instances, NUM_INSTANCES of them (00_scope.md R6). -/
abbrev Platform := Instances Config.numInstances

/-- Every instance as reset leaves it, its draw counter at 0 too. So the n-th free values of two
instances are equal, and so are their F and M here: the spec leaves each of them any value and says
nothing of how those of two instances relate (10_state.md R33, R44, 60_exceptions.md R273). DESIGN
CHOICE, unsafe for a claim that compares instances (log 25). -/
def Platform.launch : Platform := Vector.replicate Config.numInstances State.reset

/-- The access is the next input of instance k. -/
def Instances.hostNext {n : Nat} (p : Instances n) (k : Fin n) (a : HostAccess) : Instances n :=
  p.set k (p[k].withInputs (.access a :: p[k].inputs))

/-- One step of instance k; the others stay as they are. -/
def Instances.stepAt {n : Nat} (p : Instances n) (k : Fin n) :
    Host.Outcome (Instances n) Fault Refusal :=
  match step p[k] with
  | .next t => .next (p.set k t)
  | .fault e => .fault e
  | .refused r => .refused r

/-- The instance whose window a platform address lies in, with the window offset. The spec places no
window; where two windows overlap the lower instance answers. DESIGN CHOICE (log 20). -/
def Instances.locate (n address : Nat) : Option (Fin n × Nat) :=
  (List.finRange n).findSome? fun k =>
    (Config.windowOffset k.val address).map fun offset => (k, offset)

/-- A host read at a platform address reaches one instance, as its next input (20_memory.md R60,
R62); `none` when no window holds the address. -/
def Instances.readAt {n : Nat} (p : Instances n) (bits address : Nat) : Option (Instances n) :=
  (Instances.locate n address).map fun (k, offset) => p.hostNext k (.read bits offset)

/-- A host write at a platform address reaches one instance, as its next input. -/
def Instances.writeAt {n : Nat} (p : Instances n) (bits address : Nat) (v : Word) :
    Option (Instances n) :=
  (Instances.locate n address).map fun (k, offset) => p.hostNext k (.write bits offset v)

end Sys2Proof.Machine
end

