-- ==== Sys2Proof/Machine/Procedures.lean ====
section
/-! DEFINITION. The host procedures of 43_host_combinators.md: fixed sequences of host accesses
and commands, run on the machine's own `step`. POLL is the core's turn and then the STATUS read
that returns BUSY = 0; earlier reads change nothing (20_memory.md R63, 70_reset_and_hazards.md
R305; log 18). In a faulted state no core step comes and POLL does not end. -/

namespace Sys2Proof.Machine

/-- How a host procedure ends. -/
inductive ProcResult (α : Type) where
  /-- with a result -/
  | ok (v : α) (s : State)
  /-- with an error kind, returned as it stands (43_host_combinators.md R240) -/
  | error (e : ErrorKind) (s : State)
  /-- in an access the machine gives no step, or in a POLL that never reads BUSY = 0 -/
  | noStep

/-- A host procedure. -/
abbrev Proc (α : Type) := State → ProcResult α

/-- A procedure that does nothing and returns a value. -/
def Proc.give {α : Type} (v : α) : Proc α := fun s => .ok v s

/-- One procedure after another; an error ends both. -/
def Proc.bind {α β : Type} (p : Proc α) (q : α → Proc β) : Proc β := fun s =>
  match p s with
  | .ok v t => q v t
  | .error e t => .error e t
  | .noStep => .noStep

/-- One procedure after another, the first one's value not used. -/
def Proc.andThen {α β : Type} (p : Proc α) (q : Proc β) : Proc β := p.bind fun _ => q

/-- One input takes effect next. -/
def act (x : Input) : Proc Unit := fun s =>
  match step (s.withInputs (x :: s.inputs)) with
  | .next t => .ok () t
  | .fault _ => .noStep
  | .refused _ => .noStep

/-- `W <reg>, <value>`: a host write (30_encoding.md R99). -/
def hostPut (bits offset : Nat) (v : Word) : Proc Unit := act (.access (.write bits offset v))

/-- `R <reg>`: a host read and the value it returns (30_encoding.md R99). -/
def hostGet (bits offset : Nat) : Proc (Option ReadValue) :=
  (act (.access (.read bits offset))).andThen fun s => .ok s.readData s

/-- BUSY of a STATUS value: bit 0 (10_state.md R37). -/
def busyBit : Option ReadValue → Bool
  | some (.word w) => w.getLsbD 0
  | some (.byte _) => false
  | none => false

/-- POLL: the core's turn, and a STATUS read that returns BUSY = 0. -/
def poll : Proc Unit := (act .coreTurn).andThen
  ((hostGet 32 0x04).bind fun v => if busyBit v then fun _ => .noStep else .give ())

/-- `W CMD, <command>; POLL`. -/
def issue (i : Instr) : Proc Unit := (hostPut 32 0x00 (encode i)).andThen poll

/-- `W XB[k..], bs`. -/
def loadXB : List Byte → Nat → Proc Unit
  | [], _ => .give ()
  | b :: bs, k => (hostPut 8 (0x40 + k) (b.setWidth 32)).andThen (loadXB bs (k + 1))

/-- The byte of a read value. -/
def byteOf : Option ReadValue → Byte
  | some (.byte b) => b
  | some (.word w) => w.setWidth 8
  | none => 0

/-- `R XB[k..k+n−1]`. -/
def fetchXB : Nat → Nat → Proc (List Byte)
  | 0, _ => .give []
  | n + 1, k => (hostGet 8 (0x40 + k)).bind fun v => (fetchXB n (k + 1)).bind fun bs =>
      .give (byteOf v :: bs)

/-- ERRCODE of a STATUS value: bits 7:4 (10_state.md R37). -/
def errField : Option ReadValue → BitVec 4
  | some (.word w) => w.extractLsb' 4 4
  | some (.byte _) => 0
  | none => 0

/-- The kind an ERRCODE names (60_exceptions.md R260). -/
def kindOf (code : BitVec 4) : ErrorKind :=
  if code = 1 then .malformedEncoding else if code = 2 then .invalidArgument else .illegalCommand

/-- `check`: read STATUS; on an error clear it and return its kind (43_host_combinators.md R240). -/
def check : Proc Unit := (hostGet 32 0x04).bind fun v =>
  if errField v = 0 then .give ()
  else (hostPut 32 0x08 2).andThen fun s => .error (kindOf (errField v)) s

/-- Cut a byte string into chunks of up to 64 bytes, in order; the fuel is its length. -/
def chunks64 : Nat → List Byte → List (List Byte)
  | 0, _ => []
  | fuel + 1, bs => if bs.isEmpty then [] else bs.take 64 :: chunks64 fuel (bs.drop 64)

/-- Load each chunk and absorb it (43_host_combinators.md R241). -/
def absorbChunks : List (List Byte) → Proc Unit
  | [] => .give ()
  | c :: cs => (loadXB c 0).andThen
      ((issue (.dabsb (BitVec.ofNat 7 c.length))).andThen (absorbChunks cs))

/-- Sum over given chunks, each of up to 64 bytes (43_host_combinators.md R241). -/
def sumChunks (cs : List (List Byte)) : Proc (List Byte) :=
  (issue .drst).andThen ((absorbChunks cs).andThen ((issue .dsum).andThen (fetchXB 64 0)))

/-- `Sum(bs)` (43_host_combinators.md R241). -/
def procSum (bs : List Byte) : Proc (List Byte) := sumChunks (chunks64 bs.length bs)

/-- `W XB[0..63], h; MDEC md; POLL; check`. -/
def loadMatrix (h : List Byte) (md : MReg) : Proc Unit :=
  (loadXB h 0).andThen ((issue (.mdec md)).andThen check)

/-- Multiply M0 by each decoded part, left to right (43_host_combinators.md R242). -/
def foldParts : List (List Byte) → Proc Unit
  | [] => .give ()
  | h :: hs => (loadMatrix h 1).andThen ((issue (.mmul 0 0 1)).andThen (foldParts hs))

/-- `MENC M0; POLL; R XB[0..63]`. -/
def emitM0 : Proc (List Byte) := (issue (.menc 0)).andThen (fetchXB 64 0)

/-- `Concat([h_1, …, h_k])`: the length check is the host's and comes before any command
(43_host_combinators.md R242). -/
def procConcat (hs : List (List Byte)) : Proc (List Byte) := fun s =>
  if hs.any fun h => h.length != 64 then .error .malformedEncoding s
  else (issue (.mid 0)).andThen ((foldParts hs).andThen emitM0) s

/-- `Validate(h, hs)`: Concat, then a byte comparison by the host; h is not decoded
(43_host_combinators.md R243). -/
def procValidate (h : List Byte) (hs : List (List Byte)) : Proc Bool :=
  (procConcat hs).bind fun r => .give (r == h)

/-- `MDEC M1` of a part, then `MINV M1, M1` with its check (43_host_combinators.md R244, R245). -/
def loadInverse (a : List Byte) : Proc Unit :=
  (loadMatrix a 1).andThen ((issue (.minv 1 1)).andThen check)

/-- `SubtractL(h, a)`: enc64(inv2(dec64 a) · dec64 h) (43_host_combinators.md R244). -/
def procSubtractL (h a : List Byte) : Proc (List Byte) :=
  (loadInverse a).andThen ((loadMatrix h 2).andThen ((issue (.mmul 0 1 2)).andThen emitM0))

/-- `SubtractR(h, b)`: enc64(dec64 h · inv2(dec64 b)) (43_host_combinators.md R245). -/
def procSubtractR (h b : List Byte) : Proc (List Byte) :=
  (loadInverse b).andThen ((loadMatrix h 2).andThen ((issue (.mmul 0 2 1)).andThen emitM0))

end Sys2Proof.Machine
end

