-- ==== Sys2Proof/Safety.lean ====
section
/-! DEFINITION. The terms the statements use: what a command leaves unchanged, error entry, the
machine's invariant, and what counts as a safe run. -/

namespace Sys2Proof.Machine

/-- Nothing: the register set or the address set of a command that writes none. -/
def nothing {α : Type} (_ : α) : Prop := False

/-- What a command that ends normally leaves unchanged, besides S and EQ: every field register
outside `fd`, every matrix register outside `md`, every byte of XB outside `at_`, OVR, ERRCODE,
ERRCMD, the fault records, and the host's side; and it is no longer pending (10_state.md R41,
20_memory.md R67). -/
structure Leaves (s t : State) (fd : FReg → Prop) (md : MReg → Prop) (at_ : Nat → Prop) : Prop where
  f : ∀ r : FReg, ¬ fd r → t.f[r] = s.f[r]
  m : ∀ r : MReg, ¬ md r → t.m[r] = s.m[r]
  xb : ∀ a : Nat, ¬ at_ a → t.xb.read a = s.xb.read a
  ovr : t.ovr = s.ovr
  errcode : t.errcode = s.errcode
  errcmd : t.errcmd = s.errcmd
  faults : t.faults = s.faults
  inputs : t.inputs = s.inputs
  readData : t.readData = s.readData
  pend : t.pend = none

/-- Error entry of the command w with code e, "exactly this" (60_exceptions.md R262): ERRCODE,
ERRCMD and pend are written and every other piece of the spec's state keeps its value. -/
structure ErrorEntry (s t : State) (e : BitVec 4) (w : Word) : Prop where
  errcode : t.errcode = e
  errcmd : t.errcmd = w
  pend : t.pend = none
  f : t.f = s.f
  m : t.m = s.m
  digest : t.digest = s.digest
  xb : t.xb = s.xb
  eqFlag : t.eqFlag = s.eqFlag
  ovr : t.ovr = s.ovr
  faults : t.faults = s.faults
  inputs : t.inputs = s.inputs
  readData : t.readData = s.readData

/-- Byte i of the 16-byte big-endian image of x, byte 0 most significant (40_field.md R130). -/
def byteAt (x : Fe) (i : Nat) : Byte := BitVec.ofNat 8 (x.val / 256 ^ (15 - i))

/-- XB holds the 16-byte image of x from address k on. -/
def HoldsFe (m : Memory) (k : Nat) (x : Fe) : Prop :=
  ∀ i, i < 16 → m.read (k + i) = some (byteAt x i)

/-- XB holds the 64-byte image a ‖ b ‖ c ‖ d of a matrix (20_memory.md R64). -/
def HoldsMat (m : Memory) (X : Mat) : Prop :=
  HoldsFe m 0 X.a ∧ HoldsFe m 16 X.b ∧ HoldsFe m 32 X.c ∧ HoldsFe m 48 X.d

/-- A 16-byte block is well-formed: its top bit is clear and its value is not P
(60_exceptions.md R260, code 1). -/
def GoodBlock (bs : List Byte) : Prop := bs.headD 0 < 0x80 ∧ beValue bs ≠ P

/-- A matrix's determinant is 1, in plain arithmetic: a·d ≡ b·c + 1 modulo P (41_group.md R170). -/
def DetOne (X : Mat) : Prop := X.a.val * X.d.val % P = (X.b.val * X.c.val + 1) % P

/-- A word is illegal: one of the cases (a), (b), (c) of 30_encoding.md R96. -/
def IllegalWord (w : Word) : Prop :=
  (∀ r ∈ opcodeTable, opField w ≠ r.op) ∨
  (∃ r ∈ opcodeTable, opField w = r.op ∧ w &&& r.mask ≠ r.pattern) ∨
  (∃ r ∈ opcodeTable, opField w = r.op ∧ r.constraint w = false)

/-- The accesses 20_memory.md R62 defines. -/
def DefinedAccess (bits offset : Nat) : Prop :=
  bits = 32 ∧ (offset = 0x00 ∨ offset = 0x04 ∨ offset = 0x08 ∨ offset = 0x0C) ∨
  bits = 8 ∧ ∃ k, k < 64 ∧ offset = 0x40 + k

/-- The core has the turn in s, and u is s with that input gone: no input is left (log 8), or a core
turn is the next one. -/
def CoreTurn (s u : State) : Prop :=
  (s.inputs = [] ∧ u = s) ∨ ∃ rest, s.inputs = .coreTurn :: rest ∧ u = s.withInputs rest

/-- The core is idle with no error latched, not faulted, and no other input is waiting: where the
host procedures start (43_host_combinators.md, introduction; 60_exceptions.md R276). -/
def Ready (s : State) : Prop := s.pend = none ∧ s.errcode = 0 ∧ s.faults = [] ∧ s.inputs = []

/-- The machine's invariant. Canonicity of every stored field element (10_state.md R32) is not in
it: the type Fe carries it. -/
structure Inv (s : State) : Prop where
  /-- XB is in canonical form and holds only addresses 0..63 (20_memory.md R60) -/
  xb : s.xb.wf
  /-- ERRCODE takes only the values 0 to 3 (10_state.md R37) -/
  code : s.errcode.toNat ≤ 3
  /-- ERRCMD reads 0 while ERRCODE = 0 (10_state.md R38) -/
  errcmd : s.errcode = 0 → s.errcmd = 0
  /-- no command is pending while an error is latched (60_exceptions.md R263, R267) -/
  latch : s.pend ≠ none → s.errcode = 0
  /-- S is in SL(2, F) (42_digest.md R216 item 3) -/
  digest : DetOne s.digest
  /-- every UnwrittenRead record names a register its command reads (60_exceptions.md R276) -/
  records : ∀ r ∈ s.faults, ∃ i, decode r.word = .ok i ∧ r.reg ∈ readsRegs i
  /-- at most one record: a faulted state takes no further core step (60_exceptions.md R276) -/
  one : s.faults.length ≤ 1

/-- The state is final: no command is pending, no input waits, and it is not faulted. A faulted state
is never final (60_exceptions.md R276). Which unfaulted states are final the spec does not say: the
first two conditions are the model's. DESIGN CHOICE (log 26). -/
def State.final (s : State) : Bool := s.pend.isNone && s.inputs.isEmpty && !s.faulted

/-- A run of steps through unfaulted states: what 10_state.md R33 and 60_exceptions.md R276 let a
claim about a program rest on. In a faulted state the core takes no step, and what the host still
sees of it has no place here (log 3). -/
inductive SafeRun : State → State → Prop where
  | start (s : State) : s.faulted = false → SafeRun s s
  | more (s t u : State) : SafeRun s t → step t = .next u → u.faulted = false → SafeRun s u

end Sys2Proof.Machine
end

