-- ==== Sys2Proof/Certificates/Slice0/Obligations.lean ====
section
/-! DEFINITION. The statements for the provers. Each docstring names the rule of spec/ it
formalises; one that rests on a choice of the model says so and names the log entry. -/

open Sys2Proof Sys2Proof.Machine

/-! ## Encoding -/

/-- Decode and encode agree on every command: a well-formed one comes back, and a DABSB with a
count above 64 is refused by its constraint (30_encoding.md R91–R96). -/
def Obligations.EncodeThenDecodeReturnsCommand : Prop :=
  ∀ i : Instr, decode (encode i) = if i.wf then .ok i else .error .constraint

/-- Every legal word is the encoding of what it decodes to: no bit is dropped
(30_encoding.md R91–R95). -/
def Obligations.DecodeThenEncodeReturnsWord : Prop :=
  ∀ (w : Word) (i : Instr), decode w = .ok i → encode i = w ∧ i.wf = true

/-- The legal words are exactly those some row of the mask/match table covers, and at most one row
covers a word (30_encoding.md R95, R97). -/
def Obligations.LegalWordsAreCoveredByOneRow : Prop :=
  (∀ w : Word, (∃ i, decode w = .ok i) ↔ ∃ r ∈ opcodeTable, r.covers w = true) ∧
  (∀ w : Word, (opcodeTable.filter fun r => r.covers w).length ≤ 1)

/-- Words written out from the assembler table decode to their commands (30_encoding.md R99). -/
def Obligations.ListedWordsDecode : Prop :=
  decode 0x01123000 = .ok (.fadd 1 2 3) ∧ decode 0x06500003 = .ok (.fdec 5 3) ∧
  decode 0x07050002 = .ok (.fenc 5 2) ∧ decode 0x11001000 = .ok (.mmul 0 0 1) ∧
  decode 0x13003000 = .ok (.meq 0 3) ∧ decode 0x22000040 = .ok (.dabsb 64) ∧
  decode 0x24300000 = .ok (.dget 3)

/-! ## The core's step -/

/-- A step at an unfaulted core's turn runs the decoded pending command: with no input left it is
`exec` of it, and with a core turn first it is `exec` of it with that input gone (30_encoding.md
R101). That an empty input list is the core's turn is log 8. -/
def Obligations.StepRunsDecodedCommand : Prop :=
  ∀ (s : State) (w : Word) (i : Instr), s.faults = [] → s.pend = some w → decode w = .ok i →
    (s.inputs = [] → step s = exec i s) ∧
    (∀ rest, s.inputs = .coreTurn :: rest → step s = exec i (s.withInputs rest))

/-- Executing an illegal word raises IllegalCommand, error code 3, records the word and changes
nothing else: no unwritten-read record and no draw either (30_encoding.md R96,
60_exceptions.md R264 item 1). A faulted state executes nothing (R276). -/
def Obligations.IllegalWordRaisesIllegalCommand : Prop :=
  ∀ (s u : State) (w : Word), CoreTurn s u → s.faults = [] → s.pend = some w → IllegalWord w →
    ∃ t, step s = .next t ∧ ErrorEntry u t 3 w ∧ t.draws = u.draws

/-- At an unfaulted core's turn a pending word always completes, one whose command reads an unwritten
register too, and an idle core's turn changes nothing, faulted or not (10_state.md R41,
60_exceptions.md R275, 70_reset_and_hazards.md R305). A faulted state's pending word is
FaultedStateTakesNoCoreStep. That the turn comes when no input is left is the model's form of
fairness (log 8). -/
def Obligations.PendingCommandCompletes : Prop :=
  ∀ s u : State, CoreTurn s u →
    (s.faults = [] → s.pend ≠ none → ∃ t, step s = .next t ∧ t.pend = none) ∧
    (s.pend = none → step s = .next u)

/-- Error entry at the machine's level: when the command of an accepted word sets ERRCODE, the step
does exactly what R262 lists, with ERRCMD the whole failing word (60_exceptions.md R262). -/
def Obligations.ErrorEntryIsExact : Prop :=
  ∀ (s u t : State) (w : Word), CoreTurn s u → s.pend = some w → s.errcode = 0 →
    step s = .next t → t.errcode ≠ 0 → ErrorEntry u t t.errcode w

/-! ## The field unit -/

/-- FADD of written registers (40_field.md R140). A command that reads an unwritten register is
UnwrittenReadIsRecordedAndStops. -/
def Obligations.FaddWritesSum : Prop :=
  ∀ (fd fs1 fs2 : FReg) (s : State),
    (encode (.fadd fd fs1 fs2)).toNat =
      0x01 * 2 ^ 24 + fd.val * 2 ^ 20 + fs1.val * 2 ^ 16 + fs2.val * 2 ^ 12 ∧
    (s.written (.f fs1) = true → s.written (.f fs2) = true → ∃ t,
      exec (.fadd fd fs1 fs2) s = .next t ∧
      (t.readF fd).val = ((s.readF fs1).val + (s.readF fs2).val) % P ∧
      t.written (.f fd) = true ∧ t.digest = s.digest ∧ t.eqFlag = s.eqFlag ∧
      Leaves s t (· = fd) nothing nothing)

/-- FSUB of written registers (40_field.md R141). A command that reads an unwritten register is
UnwrittenReadIsRecordedAndStops. -/
def Obligations.FsubWritesDifference : Prop :=
  ∀ (fd fs1 fs2 : FReg) (s : State),
    (encode (.fsub fd fs1 fs2)).toNat =
      0x02 * 2 ^ 24 + fd.val * 2 ^ 20 + fs1.val * 2 ^ 16 + fs2.val * 2 ^ 12 ∧
    (s.written (.f fs1) = true → s.written (.f fs2) = true → ∃ t,
      exec (.fsub fd fs1 fs2) s = .next t ∧
      ((t.readF fd).val : Int) = ((s.readF fs1).val - (s.readF fs2).val : Int) % (P : Int) ∧
      t.written (.f fd) = true ∧ t.digest = s.digest ∧ t.eqFlag = s.eqFlag ∧
      Leaves s t (· = fd) nothing nothing)

/-- FMUL of written registers (40_field.md R142). A command that reads an unwritten register is
UnwrittenReadIsRecordedAndStops. -/
def Obligations.FmulWritesProduct : Prop :=
  ∀ (fd fs1 fs2 : FReg) (s : State),
    (encode (.fmul fd fs1 fs2)).toNat =
      0x03 * 2 ^ 24 + fd.val * 2 ^ 20 + fs1.val * 2 ^ 16 + fs2.val * 2 ^ 12 ∧
    (s.written (.f fs1) = true → s.written (.f fs2) = true → ∃ t,
      exec (.fmul fd fs1 fs2) s = .next t ∧
      (t.readF fd).val = (s.readF fs1).val * (s.readF fs2).val % P ∧
      t.written (.f fd) = true ∧ t.digest = s.digest ∧ t.eqFlag = s.eqFlag ∧
      Leaves s t (· = fd) nothing nothing)

/-- FINV of a written register: the unique inverse of a nonzero element; InvalidArgument for zero
(40_field.md R123, R143). An unwritten register gives no hardware error (60_exceptions.md R264):
UnwrittenReadIsRecordedAndStops. -/
def Obligations.FinvWritesUniqueInverseOrRaises : Prop :=
  ∀ (fd fs : FReg) (s : State),
    (encode (.finv fd fs)).toNat = 0x04 * 2 ^ 24 + fd.val * 2 ^ 20 + fs.val * 2 ^ 16 ∧
    (s.written (.f fs) = true → (s.readF fs).val ≠ 0 → ∃ t, exec (.finv fd fs) s = .next t ∧
      1 ≤ (t.readF fd).val ∧ (s.readF fs).val * (t.readF fd).val % P = 1 ∧
      (∀ z, z < P → (s.readF fs).val * z % P = 1 → z = (t.readF fd).val) ∧
      t.written (.f fd) = true ∧ t.digest = s.digest ∧ t.eqFlag = s.eqFlag ∧
      Leaves s t (· = fd) nothing nothing) ∧
    (s.written (.f fs) = true → (s.readF fs).val = 0 → ∃ t, exec (.finv fd fs) s = .next t ∧
      ErrorEntry s t 2 (encode (.finv fd fs)))

/-- FEQ of written registers (40_field.md R144). -/
def Obligations.FeqSetsEqToEquality : Prop :=
  ∀ (fs1 fs2 : FReg) (s : State),
    (encode (.feq fs1 fs2)).toNat = 0x05 * 2 ^ 24 + fs1.val * 2 ^ 16 + fs2.val * 2 ^ 12 ∧
    (s.written (.f fs1) = true → s.written (.f fs2) = true → ∃ t,
      exec (.feq fs1 fs2) s = .next t ∧
      (t.eqFlag = true ↔ (s.readF fs1).val = (s.readF fs2).val) ∧ t.digest = s.digest ∧
      Leaves s t nothing nothing nothing)

/-- FDEC: the big-endian value of the slot's 16 bytes, or MalformedEncoding (40_field.md R145). The
bytes are those the command reads; an unwritten one is a draw (log 5). -/
def Obligations.FdecWritesBlockValueOrRaises : Prop :=
  ∀ (fd : FReg) (slot : Slot) (s : State),
    (encode (.fdec fd slot)).toNat = 0x06 * 2 ^ 24 + fd.val * 2 ^ 20 + slot.val ∧
    (GoodBlock (s.memRead (16 * slot.val) 16) → ∃ t, exec (.fdec fd slot) s = .next t ∧
      (t.readF fd).val = beValue (s.memRead (16 * slot.val) 16) ∧
      t.written (.f fd) = true ∧ t.digest = s.digest ∧ t.eqFlag = s.eqFlag ∧
      Leaves s t (· = fd) nothing nothing) ∧
    (¬ GoodBlock (s.memRead (16 * slot.val) 16) → ∃ t, exec (.fdec fd slot) s = .next t ∧
      ErrorEntry s t 1 (encode (.fdec fd slot)))

/-- FENC of a written register: the slot's bytes become the big-endian image; the other 48 bytes are
unchanged (40_field.md R146). -/
def Obligations.FencStoresImageInSlot : Prop :=
  ∀ (fs : FReg) (slot : Slot) (s : State),
    (encode (.fenc fs slot)).toNat = 0x07 * 2 ^ 24 + fs.val * 2 ^ 16 + slot.val ∧
    (s.written (.f fs) = true → ∃ t, exec (.fenc fs slot) s = .next t ∧
      HoldsFe t.xb (slotOffset slot) (s.readF fs) ∧ slotOffset slot = 16 * slot.val ∧
      t.digest = s.digest ∧ t.eqFlag = s.eqFlag ∧
      Leaves s t nothing nothing (fun a => slotOffset slot ≤ a ∧ a < slotOffset slot + 16))

/-! ## The matrix unit -/

/-- MID (41_group.md R190). -/
def Obligations.MidWritesIdentity : Prop :=
  ∀ (md : MReg) (s : State),
    (encode (.mid md)).toNat = 0x10 * 2 ^ 24 + md.val * 2 ^ 20 ∧
    ∃ t, exec (.mid md) s = .next t ∧ t.readM md = .ofNats 1 0 0 1 ∧
      t.written (.m md) = true ∧
      t.digest = s.digest ∧ t.eqFlag = s.eqFlag ∧ Leaves s t nothing (· = md) nothing

/-- MMUL of written registers: the standard product of the old values (41_group.md R171, R191). -/
def Obligations.MmulWritesMatrixProduct : Prop :=
  ∀ (md ms1 ms2 : MReg) (s : State),
    (encode (.mmul md ms1 ms2)).toNat =
      0x11 * 2 ^ 24 + md.val * 2 ^ 20 + ms1.val * 2 ^ 16 + ms2.val * 2 ^ 12 ∧
    (s.written (.m ms1) = true → s.written (.m ms2) = true → ∃ t,
      exec (.mmul md ms1 ms2) s = .next t ∧
      (let X := s.readM ms1; let Y := s.readM ms2; let R := t.readM md
       R.a.val = (X.a.val * Y.a.val + X.b.val * Y.c.val) % P ∧
       R.b.val = (X.a.val * Y.b.val + X.b.val * Y.d.val) % P ∧
       R.c.val = (X.c.val * Y.a.val + X.d.val * Y.c.val) % P ∧
       R.d.val = (X.c.val * Y.b.val + X.d.val * Y.d.val) % P) ∧
      t.written (.m md) = true ∧ t.digest = s.digest ∧ t.eqFlag = s.eqFlag ∧
      Leaves s t nothing (· = md) nothing)

/-- MINV of a written register: [[d, −b], [−c, a]] when the determinant is 1, else InvalidArgument
(41_group.md R174, R192). An unwritten register gives no hardware error (60_exceptions.md R264):
UnwrittenReadIsRecordedAndStops. -/
def Obligations.MinvWritesInverseOrRaises : Prop :=
  ∀ (md ms : MReg) (s : State),
    (encode (.minv md ms)).toNat = 0x12 * 2 ^ 24 + md.val * 2 ^ 20 + ms.val * 2 ^ 16 ∧
    (s.written (.m ms) = true → DetOne (s.readM ms) → ∃ t, exec (.minv md ms) s = .next t ∧
      (let X := s.readM ms; let R := t.readM md
       R.a = X.d ∧ R.b.val = (P - X.b.val) % P ∧ R.c.val = (P - X.c.val) % P ∧ R.d = X.a) ∧
      t.written (.m md) = true ∧ t.digest = s.digest ∧ t.eqFlag = s.eqFlag ∧
      Leaves s t nothing (· = md) nothing) ∧
    (s.written (.m ms) = true → ¬ DetOne (s.readM ms) → ∃ t, exec (.minv md ms) s = .next t ∧
      ErrorEntry s t 2 (encode (.minv md ms)))

/-- MEQ of written registers (41_group.md R193). -/
def Obligations.MeqSetsEqToEquality : Prop :=
  ∀ (ms1 ms2 : MReg) (s : State),
    (encode (.meq ms1 ms2)).toNat = 0x13 * 2 ^ 24 + ms1.val * 2 ^ 16 + ms2.val * 2 ^ 12 ∧
    (s.written (.m ms1) = true → s.written (.m ms2) = true → ∃ t,
      exec (.meq ms1 ms2) s = .next t ∧
      (t.eqFlag = true ↔ s.readM ms1 = s.readM ms2) ∧
      (t.eqFlag = true ↔ enc64 (s.readM ms1) = enc64 (s.readM ms2)) ∧ t.digest = s.digest ∧
      Leaves s t nothing nothing nothing)

/-- MCHK of a written register: EQ reports whether the determinant is 1; it never raises
(41_group.md R194). -/
def Obligations.MchkSetsEqToDeterminantOne : Prop :=
  ∀ (ms : MReg) (s : State),
    (encode (.mchk ms)).toNat = 0x14 * 2 ^ 24 + ms.val * 2 ^ 16 ∧
    (s.written (.m ms) = true → ∃ t, exec (.mchk ms) s = .next t ∧
      (t.eqFlag = true ↔ DetOne (s.readM ms)) ∧
      t.digest = s.digest ∧ Leaves s t nothing nothing nothing)

/-- MDEC: the four blocks of XB, or MalformedEncoding if any one is bad; no determinant check
(41_group.md R195). An unwritten byte is a draw (log 5). -/
def Obligations.MdecWritesBlockValuesOrRaises : Prop :=
  ∀ (md : MReg) (s : State),
    (encode (.mdec md)).toNat = 0x15 * 2 ^ 24 + md.val * 2 ^ 20 ∧
    ((∀ k, k < 4 → GoodBlock (block16 (s.memRead 0 64) k)) → ∃ t, exec (.mdec md) s = .next t ∧
      (let R := t.readM md; let bs := s.memRead 0 64
       R.a.val = beValue (block16 bs 0) ∧ R.b.val = beValue (block16 bs 1) ∧
       R.c.val = beValue (block16 bs 2) ∧ R.d.val = beValue (block16 bs 3)) ∧
      t.written (.m md) = true ∧ t.digest = s.digest ∧ t.eqFlag = s.eqFlag ∧
      Leaves s t nothing (· = md) nothing) ∧
    ((∃ k, k < 4 ∧ ¬ GoodBlock (block16 (s.memRead 0 64) k)) → ∃ t, exec (.mdec md) s = .next t ∧
      ErrorEntry s t 1 (encode (.mdec md)))

/-- MENC of a written register: all of XB becomes the 64-byte image (41_group.md R196). -/
def Obligations.MencStoresImageInBuffer : Prop :=
  ∀ (ms : MReg) (s : State),
    (encode (.menc ms)).toNat = 0x16 * 2 ^ 24 + ms.val * 2 ^ 16 ∧
    (s.written (.m ms) = true → ∃ t, exec (.menc ms) s = .next t ∧ HoldsMat t.xb (s.readM ms) ∧
      t.digest = s.digest ∧ t.eqFlag = s.eqFlag ∧ Leaves s t nothing nothing (· < 64))

/-! ## The digest unit -/

/-- DRST (42_digest.md R220). -/
def Obligations.DrstWritesIdentity : Prop :=
  ∀ s : State, (encode .drst).toNat = 0x20 * 2 ^ 24 ∧
    ∃ t, exec .drst s = .next t ∧ t.digest = .ofNats 1 0 0 1 ∧ t.eqFlag = s.eqFlag ∧
      Leaves s t nothing nothing nothing

/-- DABS: one generator multiplication on the right per bit, most significant first; it always
succeeds (42_digest.md R210, R211, R213, R221). -/
def Obligations.DabsAbsorbsByteMsbFirst : Prop :=
  ∀ (v : Byte) (s : State),
    (encode (.dabs v)).toNat = 0x21 * 2 ^ 24 + v.toNat ∧
    ∃ t, exec (.dabs v) s = .next t ∧
      (let G : Nat → Mat := fun i => if v.toNat.testBit i then .ofNats 1 0 1 1 else .ofNats 1 1 0 1
       t.digest = mulM (mulM (mulM (mulM (mulM (mulM (mulM (mulM s.digest (G 7)) (G 6)) (G 5))
        (G 4)) (G 3)) (G 2)) (G 1)) (G 0)) ∧
      t.eqFlag = s.eqFlag ∧ Leaves s t nothing nothing nothing

/-- DABSB: the first n bytes of XB in index order, n ≤ 64; IllegalCommand above (42_digest.md R214,
R222). An unwritten byte is a draw (log 5). -/
def Obligations.DabsbAbsorbsPrefixOrRaises : Prop :=
  ∀ (n : BitVec 7) (s : State),
    (encode (.dabsb n)).toNat = 0x22 * 2 ^ 24 + n.toNat ∧
    (n.toNat ≤ 64 → ∃ t, exec (.dabsb n) s = .next t ∧
      t.digest = (s.memRead 0 n.toNat).foldl absorbByte s.digest ∧
      t.eqFlag = s.eqFlag ∧ Leaves s t nothing nothing nothing) ∧
    (64 < n.toNat → ∃ t, exec (.dabsb n) s = .next t ∧ ErrorEntry s t 3 (encode (.dabsb n)))

/-- DSUM: all of XB becomes the image of S, and S is unchanged (42_digest.md R223). -/
def Obligations.DsumStoresDigest : Prop :=
  ∀ s : State, (encode .dsum).toNat = 0x23 * 2 ^ 24 ∧
    ∃ t, exec .dsum s = .next t ∧ HoldsMat t.xb s.digest ∧
      t.digest = s.digest ∧ t.eqFlag = s.eqFlag ∧ Leaves s t nothing nothing (· < 64)

/-- DGET (42_digest.md R224). -/
def Obligations.DgetCopiesDigest : Prop :=
  ∀ (md : MReg) (s : State),
    (encode (.dget md)).toNat = 0x24 * 2 ^ 24 + md.val * 2 ^ 20 ∧
    ∃ t, exec (.dget md) s = .next t ∧ t.readM md = s.digest ∧ t.written (.m md) = true ∧
      t.digest = s.digest ∧ t.eqFlag = s.eqFlag ∧
      Leaves s t nothing (· = md) nothing

/-! ## Arithmetic and encodings -/

/-- The addition and subtraction datapaths with their bounds, and the source's fast-reduction form
of the sum, give (x + y) mod P and (x − y) mod P (40_field.md R120, R121). -/
def Obligations.AddAndSubtractDatapathsAreModular : Prop :=
  ∀ x y : Fe,
    (addF x y).val = (x.val + y.val) % P ∧ addDatapath x.val y.val = (x.val + y.val) % P ∧
    (let s' := ((x.val + y.val) &&& P) + ((x.val + y.val) >>> 127)
     (if s' = P then 0 else s') = (x.val + y.val) % P) ∧
    ((subF x y).val : Int) = (x.val - y.val : Int) % (P : Int) ∧
    subDatapath x.val y.val = (subF x y).val ∧
    x.val + y.val ≤ 2 * P - 2 ∧ 1 ≤ x.val + (P - y.val) ∧ x.val + (P - y.val) ≤ 2 * P - 1

/-- The Mersenne fold: its bounds, and that one conditional subtraction of it gives the product
modulo P (40_field.md R122). -/
def Obligations.MersenneFoldMultiplies : Prop :=
  ∀ x y : Fe,
    (mulF x y).val = x.val * y.val % P ∧ mulDatapath x.val y.val = x.val * y.val % P ∧
    x.val * y.val ≤ (P - 1) ^ 2 ∧ (x.val * y.val) >>> 127 ≤ 2 ^ 127 - 4 ∧ (x.val * y.val) &&& P ≤ P ∧
    foldSum (x.val * y.val) ≤ 2 * P - 3

/-- F is a field: the laws of 40_field.md R124. -/
def Obligations.FieldLaws : Prop :=
  (∀ x y z : Fe, addF (addF x y) z = addF x (addF y z) ∧ mulF (mulF x y) z = mulF x (mulF y z) ∧
    mulF x (addF y z) = addF (mulF x y) (mulF x z)) ∧
  (∀ x y : Fe, addF x y = addF y x ∧ mulF x y = mulF y x ∧ subF x y = addF x (negF y) ∧
    (mulF x y = .ofNat 0 ↔ x = .ofNat 0 ∨ y = .ofNat 0)) ∧
  (∀ x : Fe, addF x (.ofNat 0) = x ∧ mulF x (.ofNat 1) = x ∧ addF x (negF x) = .ofNat 0 ∧
    (x ≠ .ofNat 0 → mulF x (invF x) = .ofNat 1))

/-- enc16 and dec16: their definition byte by byte, the round trips, and how many strings decode
(40_field.md R130). -/
def Obligations.FieldEncodingLaws : Prop :=
  (∀ x : Fe, (enc16 x).length = 16 ∧ (∀ i, i < 16 → (enc16 x)[i]? = some (byteAt x i)) ∧
    (enc16 x).headD 0 ≤ 0x7F ∧ dec16 (enc16 x) = some x) ∧
  (∀ bs : List Byte, bs.length = 16 →
    beValue bs = ∑ i ∈ Finset.range 16, (bs.getD i 0).toNat * 256 ^ (15 - i) ∧
    (dec16 bs = none ↔ ¬ GoodBlock bs) ∧
    (∀ x, dec16 bs = some x → x.val = beValue bs ∧ enc16 x = bs)) ∧
  Nat.card { bs : List Byte // bs.length = 16 ∧ (dec16 bs).isSome } = 2 ^ 127 - 1

/-- enc64 and dec64: the layout a ‖ b ‖ c ‖ d and the round trips (41_group.md R180). -/
def Obligations.MatrixEncodingLaws : Prop :=
  (∀ X : Mat, enc64 X = enc16 X.a ++ enc16 X.b ++ enc16 X.c ++ enc16 X.d ∧
    (enc64 X).length = 64 ∧ dec64 (enc64 X) = some X) ∧
  (∀ bs : List Byte, bs.length = 64 →
    (dec64 bs = none ↔ ∃ k, k < 4 ∧ dec16 (block16 bs k) = none) ∧
    (∀ X, dec64 bs = some X → dec16 (block16 bs 0) = some X.a ∧ dec16 (block16 bs 1) = some X.b ∧
      dec16 (block16 bs 2) = some X.c ∧ dec16 (block16 bs 3) = some X.d ∧ enc64 X = bs))

/-- mulM is associative with identity I2, the determinant is multiplicative, and GA and GB do not
commute (41_group.md R172). -/
def Obligations.MatrixProductLaws : Prop :=
  (∀ X Y Z : Mat, mulM (mulM X Y) Z = mulM X (mulM Y Z)) ∧
  (∀ X : Mat, mulM I2 X = X ∧ mulM X I2 = X) ∧
  (∀ X Y : Mat, det (mulM X Y) = mulF (det X) (det Y)) ∧
  (∀ X Y : Mat, det X = .ofNat 1 → det Y = .ofNat 1 → det (mulM X Y) = .ofNat 1) ∧
  mulM GA GB = .ofNats 2 1 1 1 ∧ mulM GB GA = .ofNats 1 1 1 2 ∧ mulM GA GB ≠ mulM GB GA

/-- The determinant-1 shortcut is a two-sided inverse, again of determinant 1 (41_group.md R174). -/
def Obligations.ShortcutInverseIsInverse : Prop :=
  ∀ X : Mat, det X = .ofNat 1 →
    inv2 X = ⟨X.d, negF X.b, negF X.c, X.a⟩ ∧
    mulM X (inv2 X) = I2 ∧ mulM (inv2 X) X = I2 ∧ det (inv2 X) = .ofNat 1

/-- The two-adder generator datapath equals the product with the generator (42_digest.md R212). -/
def Obligations.GeneratorDatapathAbsorbs : Prop :=
  ∀ (a b c d : Fe),
    mulM ⟨a, b, c, d⟩ GA = ⟨a, addF a b, c, addF c d⟩ ∧
    mulM ⟨a, b, c, d⟩ GB = ⟨addF a b, b, addF c d, d⟩ ∧
    (∀ v, absorbBitDatapath ⟨a, b, c, d⟩ v = absorbBit ⟨a, b, c, d⟩ v)

/-- Streaming equivalence, the homomorphism and determinant preservation (42_digest.md R216). -/
def Obligations.AbsorptionIsHomomorphism : Prop :=
  ∀ (S : Mat) (x y : List Byte),
    absorb (absorb S x) y = absorb S (x ++ y) ∧
    absorb I2 (x ++ y) = mulM (absorb I2 x) (absorb I2 y) ∧
    absorb S x = mulM S (absorb I2 x) ∧
    (det S = .ofNat 1 → det (absorb S x) = .ofNat 1)

/-! ## Rules over all commands -/

/-- Only DRST, DABS and DABSB write S (10_state.md R36), and only FEQ, MEQ and MCHK write EQ: every
other command leaves it unchanged, including one that raises an error (R34). -/
def Obligations.DigestAndEqHaveListedWriters : Prop :=
  ∀ (i : Instr) (s : State), ∃ t, exec i s = .next t ∧
    (t.digest = s.digest ∨ i = .drst ∨ (∃ v, i = .dabs v) ∨ ∃ n, i = .dabsb n) ∧
    (t.eqFlag = s.eqFlag ∨ (∃ a b, i = .feq a b) ∨ (∃ a b, i = .meq a b) ∨ ∃ a, i = .mchk a)

/-- Among well-formed commands only FDEC and MDEC raise MalformedEncoding and only FINV and MINV
raise InvalidArgument; each records its own word; every other command leaves ERRCODE and ERRCMD
unchanged (60_exceptions.md R260, R261). -/
def Obligations.OnlyFourCommandsRaise : Prop :=
  ∀ (i : Instr) (s : State), i.wf = true → ∃ t, exec i s = .next t ∧
    ((t.errcode = s.errcode ∧ t.errcmd = s.errcmd) ∨
     (t.errcode = 1 ∧ t.errcmd = encode i ∧
       ((∃ fd k, i = .fdec fd k) ∨ ∃ md, i = .mdec md)) ∨
     (t.errcode = 2 ∧ t.errcmd = encode i ∧
       ((∃ fd fs, i = .finv fd fs) ∨ ∃ md ms, i = .minv md ms)))

/-- The table of XB accesses, for a command whose sources were written (the others have no effect but
their record, UnwrittenReadIsRecordedAndStops): its effect depends on no byte of XB outside those it
reads, and leaves every byte outside those it writes unchanged (20_memory.md R67). -/
def Obligations.CommandsReachOnlyListedBytes : Prop :=
  ∀ (i : Instr) (s : State) (m : Memory),
    (∀ r ∈ readsRegs i, s.written r = true) →
    (∀ a, readsXB i a = true → m.read a = s.xb.read a) →
    ∃ t u, exec i s = .next t ∧ exec i { s with xb := m } = .next u ∧
      u.f = t.f ∧ u.m = t.m ∧ u.digest = t.digest ∧ u.eqFlag = t.eqFlag ∧
      u.errcode = t.errcode ∧ u.errcmd = t.errcmd ∧ u.faults = t.faults ∧
      (∀ a, writesXB i a = true → u.xb.read a = t.xb.read a) ∧
      (∀ a, writesXB i a = false → t.xb.read a = s.xb.read a ∧ u.xb.read a = m.read a)

/-- A command that reads an unwritten register records exactly one UnwrittenRead, of the first such
register in operand order, with its word, and stops: it is no longer pending, no destination is
written, no error is raised (10_state.md R33, R41, 30_encoding.md R101, 60_exceptions.md R264, R276).
A command whose registers were all written records nothing. That the order is the operands' is log
12. -/
def Obligations.UnwrittenReadIsRecordedAndStops : Prop :=
  ∀ (i : Instr) (s : State),
    ((∀ r ∈ readsRegs i, s.written r = true) → ∃ t, exec i s = .next t ∧ t.faults = s.faults) ∧
    (∀ (pre post : List RegName) (r : RegName), readsRegs i = pre ++ r :: post →
      (∀ q ∈ pre, s.written q = true) → s.written r = false →
      exec i s = .next { s with faults := s.faults ++ [⟨r, encode i⟩], pend := none })

/-- A faulted state takes no further core step: its core's turn passes and changes nothing but the
input list, a pending word included (log 3). It is never final, whichever unfaulted states are (log
26). And no step erases a record: not a command, not a host access, not a soft or hard reset
(60_exceptions.md R276, 70_reset_and_hazards.md R291). -/
def Obligations.FaultedStateTakesNoCoreStep : Prop :=
  (∀ s u : State, CoreTurn s u → s.faults ≠ [] → step s = .next u) ∧
  (∀ s : State, s.faults ≠ [] → s.final = false) ∧
  (∀ s t : State, step s = .next t → s.faults <+: t.faults)

/-- MemRead gives the bytes XB holds, in index order. A byte nothing has written is a draw, a fresh
one at each read: the model's choice, log 5 (10_state.md R44). -/
def Obligations.MemReadGivesBytesOrDraws : Prop :=
  ∀ (s : State) (k n : Nat), (s.memRead k n).length = n ∧
    ∀ i, i < n →
      (∀ b, s.xb.read (k + i) = some b → (s.memRead k n)[i]? = some b) ∧
      (s.xb.read (k + i) = none → (s.memRead k n)[i]? = some (Config.freeByte (s.draws + i)))

/-! ## The host window -/

/-- A CMD write: dropped with OVR while busy, else discarded while an error is latched, else
accepted (20_memory.md R68). -/
def Obligations.CmdWriteDroppedDiscardedOrAccepted : Prop :=
  ∀ (s : State) (w : Word) (rest : List Input),
    s.inputs = .access (.write 32 0x00 w) :: rest →
    ∃ t, step s = .next t ∧
      t = (if s.pend ≠ none then { s with inputs := rest, ovr := true }
        else if s.errcode ≠ 0 then { s with inputs := rest }
        else { s with inputs := rest, pend := some w })

/-- A write to CMD, CTRL or XB while a command is pending changes nothing but OVR, which it sets;
and no step clears OVR but a CTRL write with SRST or CLRERR and a hard reset (20_memory.md R77). -/
def Obligations.BusyWritesAreDroppedAndOverrunSticks : Prop :=
  (∀ (s : State) (bits offset : Nat) (v : Word) (rest : List Input),
    s.pend ≠ none → s.inputs = .access (.write bits offset v) :: rest →
    (bits = 32 ∧ (offset = 0x00 ∨ offset = 0x08)) ∨ (bits = 8 ∧ ∃ k, k < 64 ∧ offset = 0x40 + k) →
    step s = .next { s with inputs := rest, ovr := true }) ∧
  (∀ s t : State, step s = .next t → s.ovr = true → t.ovr = true ∨
    (∃ rest, s.inputs = .hardReset :: rest) ∨
    ∃ v rest, s.inputs = .access (.write 32 0x08 v) :: rest ∧ s.pend = none ∧
      (v.getLsbD 0 = true ∨ v.getLsbD 1 = true))

/-- Reads of CMD and CTRL return 0; no defined read changes anything of the spec's state; writes to
STATUS and ERRCMD have no effect, even while busy; an XB write is idempotent while BUSY = 0
(20_memory.md R63). -/
def Obligations.ReadsHaveNoSideEffect : Prop :=
  (∀ (s : State) (bits offset : Nat) (rest : List Input),
    s.inputs = .access (.read bits offset) :: rest → DefinedAccess bits offset →
    ∃ t v, step s = .next t ∧
      t = { s with inputs := rest, draws := t.draws, readData := some v } ∧
      (offset = 0x00 ∨ offset = 0x08 → v = .word 0) ∧
      (offset = 0x0C → v = .word s.errcmd)) ∧
  (∀ (s : State) (offset : Nat) (v : Word) (rest : List Input),
    s.inputs = .access (.write 32 offset v) :: rest → offset = 0x04 ∨ offset = 0x0C →
    step s = .next { s with inputs := rest }) ∧
  (∀ (s : State) (k : Nat) (v : Word) (rest : List Input), s.pend = none → k < 64 →
    s.inputs = .access (.write 8 (0x40 + k) v) :: .access (.write 8 (0x40 + k) v) :: rest →
    ∃ t, step s = .next t ∧ step t = .next { t with inputs := rest })

/-- The STATUS word, field by field (10_state.md R37). -/
def Obligations.StatusWordFields : Prop :=
  ∀ (s : State) (rest : List Input), s.inputs = .access (.read 32 0x04) :: rest →
    ∃ t v, step s = .next t ∧ t.readData = some (.word v) ∧
      (v.getLsbD 0 = true ↔ s.pend ≠ none) ∧ v.getLsbD 1 = s.eqFlag ∧ v.getLsbD 2 = s.ovr ∧
      v.getLsbD 3 = false ∧ v.extractLsb' 4 4 = s.errcode ∧ v.extractLsb' 8 24 = 0

/-- An XB read: while a command is pending a draw, whatever XB holds (20_memory.md R78); else the
byte XB holds, or a draw if nothing has written it (10_state.md R44). -/
def Obligations.XbReadGivesByteOrDraw : Prop :=
  ∀ (s : State) (k : Nat) (rest : List Input), k < 64 →
    s.inputs = .access (.read 8 (0x40 + k)) :: rest →
    ∃ t, step s = .next t ∧
      (s.pend ≠ none → t.readData = some (.byte (Config.freeByte s.draws))) ∧
      (s.pend = none → ∀ b, s.xb.read k = some b → t.readData = some (.byte b)) ∧
      (s.pend = none → s.xb.read k = none →
        t.readData = some (.byte (Config.freeByte s.draws))) ∧
      t.draws = s.draws + 1

/-- An XB write while BUSY = 0 stores its byte, which later reads give, and leaves every other byte
and everything else unchanged (20_memory.md R61, R70 item 1). -/
def Obligations.XbWriteStoresOneByte : Prop :=
  ∀ (s : State) (k : Nat) (v : Word) (rest : List Input), k < 64 → s.pend = none →
    s.inputs = .access (.write 8 (0x40 + k) v) :: rest →
    ∃ t, step s = .next t ∧ t.xb.read k = some (v.extractLsb' 0 8) ∧
      (∀ a, a ≠ k → t.xb.read a = s.xb.read a) ∧ (s.xb.wf → t.xb.wf) ∧
      t = { s with inputs := rest, xb := t.xb }

/-- The model steps on exactly the accesses R62 defines, and refuses every other by name
(20_memory.md R62). -/
def Obligations.UndefinedAccessIsRefused : Prop :=
  ∀ (s : State) (bits offset : Nat) (v : Word) (rest : List Input) (a : HostAccess),
    a = .read bits offset ∨ a = .write bits offset v → s.inputs = .access a :: rest →
    (DefinedAccess bits offset → ∃ t, step s = .next t) ∧
    (¬ DefinedAccess bits offset → step s = .refused (.undefinedAccess bits offset))

/-- Error return: CTRL.CLRERR written while BUSY = 0 clears ERRCODE, ERRCMD and OVR and nothing
else, whatever input comes next, and if that is a CMD write it is accepted (60_exceptions.md R266).
A CTRL write while BUSY = 0 with SRST and CLRERR both 0 changes nothing, whatever its reserved bits
(10_state.md R39). -/
def Obligations.ClrerrReturnsToAccepting : Prop :=
  ∀ (s : State) (v : Word) (rest : List Input), s.pend = none → v.getLsbD 0 = false →
    s.inputs = .access (.write 32 0x08 v) :: rest →
    (v.getLsbD 1 = true → ∃ t, step s = .next t ∧
      t = { s with inputs := rest, errcode := 0, errcmd := 0, ovr := false } ∧
      ∀ w rest', rest = .access (.write 32 0x00 w) :: rest' →
        step t = .next { t with inputs := rest', pend := some w }) ∧
    (v.getLsbD 1 = false → step s = .next { s with inputs := rest })

/-- A soft reset while BUSY = 0, whatever CLRERR says, and a hard reset in any state leave what the
reset table says, for every value F and M may hold (10_state.md R39, 70_reset_and_hazards.md R290,
R291). -/
def Obligations.ResetsLeaveResetState : Prop :=
  ∀ (s : State) (x : Input) (rest : List Input), s.inputs = x :: rest →
    x = .hardReset ∨ (s.pend = none ∧ ∃ v : Word, v.getLsbD 0 = true ∧
      x = .access (.write 32 0x08 v)) →
    ∃ t, step s = .next t ∧ t.digest = .ofNats 1 0 0 1 ∧
      (∀ r : RegName, t.written r = false) ∧ (∀ a, t.xb.read a = none) ∧
      t.pend = none ∧ t.eqFlag = false ∧ t.ovr = false ∧ t.errcode = 0 ∧ t.errcmd = 0 ∧
      t.faults = s.faults ∧ t.inputs = rest

/-- The reset state holds what the reset table gives (70_reset_and_hazards.md R291); the values of
F and M, which the table leaves unspecified, are not in this statement (log 1, 2). -/
def Obligations.ResetStateHoldsTableValues : Prop :=
  State.reset.digest = .ofNats 1 0 0 1 ∧ (∀ r : RegName, State.reset.written r = false) ∧
  (∀ a, State.reset.xb.read a = none) ∧ State.reset.pend = none ∧ State.reset.eqFlag = false ∧
  State.reset.ovr = false ∧ State.reset.errcode = 0 ∧ State.reset.errcmd = 0 ∧
  State.reset.faults = [] ∧ State.reset.statusWord = 0

/-- While an error is latched no command executes and ERRCODE and ERRCMD keep describing the first
error, until a CTRL write with SRST or CLRERR or a hard reset (60_exceptions.md R263, R267). -/
def Obligations.FirstErrorStaysLatched : Prop :=
  ∀ s t : State, s.pend = none → s.errcode ≠ 0 → step s = .next t →
    (t.errcode = s.errcode ∧ t.errcmd = s.errcmd ∧ t.pend = none ∧ t.f = s.f ∧ t.m = s.m ∧
      t.digest = s.digest ∧ t.eqFlag = s.eqFlag) ∨
    (∃ rest, s.inputs = .hardReset :: rest) ∨
    ∃ v rest, s.inputs = .access (.write 32 0x08 v) :: rest ∧
      (v.getLsbD 0 = true ∨ v.getLsbD 1 = true)

/-! ## The invariant -/

/-- Every step, of the core, the host or the reset input, keeps the invariant. -/
def Obligations.StepKeepsInvariant : Prop := ∀ s t : State, Inv s → step s = .next t → Inv t

/-- The reset state meets the invariant. -/
def Obligations.ResetMeetsInvariant : Prop := Inv State.reset

/-! ## Several instances -/

/-- A step of one instance leaves every other instance as it was, and is that instance's own step
(60_exceptions.md R273). -/
def Obligations.InstancesNeverInteract : Prop :=
  ∀ (n : Nat) (p q : Instances n) (k : Fin n), p.stepAt k = .next q →
    step p[k] = .next q[k] ∧ ∀ j : Fin n, j ≠ k → q[j] = p[j]

/-! ## The host procedures -/

/-- Sum returns the image of the absorbed string, for every way of cutting it into chunks of up to
64 bytes (43_host_combinators.md R241). POLL is log 18. -/
def Obligations.SumReturnsDigestOfString : Prop :=
  ∀ (s : State), Ready s →
    (∀ cs : List (List Byte), (∀ c ∈ cs, c.length ≤ 64) →
      ∃ t, sumChunks cs s = .ok (enc64 (absorb I2 cs.flatten)) t ∧ Ready t) ∧
    (∀ bs : List Byte, ∃ t, procSum bs s = .ok (enc64 (absorb I2 bs)) t ∧ Ready t)

/-- Concat multiplies the decoded parts left to right; a part of the wrong length is an error before
any command, and a part that does not decode gives MalformedEncoding with the latch cleared
(43_host_combinators.md R240, R242). POLL is log 18. -/
def Obligations.ConcatReturnsProduct : Prop :=
  ∀ (s : State) (hs : List (List Byte)), Ready s →
    ((∃ h ∈ hs, h.length ≠ 64) → procConcat hs s = .error .malformedEncoding s) ∧
    ((∀ h ∈ hs, h.length = 64) →
      (∀ Ms, hs.mapM dec64 = some Ms →
        ∃ t, procConcat hs s = .ok (enc64 (Ms.foldl mulM I2)) t ∧ Ready t) ∧
      (hs.mapM dec64 = none →
        ∃ t, procConcat hs s = .error .malformedEncoding t ∧ Ready t))

/-- SubtractL and SubtractR: the quotient on the left and on the right; MalformedEncoding for an
operand that does not decode, InvalidArgument for one to invert whose determinant is not 1
(43_host_combinators.md R244, R245). POLL is log 18; operands of another length are left out, log
24. -/
def Obligations.SubtractorsReturnQuotient : Prop :=
  ∀ (s : State) (h a : List Byte), Ready s → h.length = 64 → a.length = 64 →
    (∀ A H, dec64 a = some A → dec64 h = some H → det A = .ofNat 1 →
      (∃ t, procSubtractL h a s = .ok (enc64 (mulM (inv2 A) H)) t ∧ Ready t) ∧
      ∃ t, procSubtractR h a s = .ok (enc64 (mulM H (inv2 A))) t ∧ Ready t) ∧
    (∀ A, dec64 a = some A → det A ≠ .ofNat 1 →
      (∃ t, procSubtractL h a s = .error .invalidArgument t ∧ Ready t) ∧
      ∃ t, procSubtractR h a s = .error .invalidArgument t ∧ Ready t) ∧
    (dec64 a = none ∨ (∃ A, dec64 a = some A ∧ det A = .ofNat 1 ∧ dec64 h = none) →
      (∃ t, procSubtractL h a s = .error .malformedEncoding t ∧ Ready t) ∧
      ∃ t, procSubtractR h a s = .error .malformedEncoding t ∧ Ready t)

/-- Validate is Concat and then a byte comparison: the result says whether h is the image of the
product, so an h that does not decode or has another length gives false; and Concat's errors
propagate (43_host_combinators.md R243). The last clause is the homomorphism at the host's level
(R246 item 1). POLL is log 18. -/
def Obligations.ValidateComparesWithProduct : Prop :=
  ∀ (s : State) (h : List Byte) (hs : List (List Byte)), Ready s →
    ((∃ x ∈ hs, x.length ≠ 64) → procValidate h hs s = .error .malformedEncoding s) ∧
    ((∀ x ∈ hs, x.length = 64) →
      (∀ Ms, hs.mapM dec64 = some Ms →
        ∃ t, procValidate h hs s = .ok (h == enc64 (Ms.foldl mulM I2)) t ∧ Ready t) ∧
      (hs.mapM dec64 = none →
        ∃ t, procValidate h hs s = .error .malformedEncoding t ∧ Ready t)) ∧
    (∀ x y : List Byte, hs = [enc64 (absorb I2 x), enc64 (absorb I2 y)] →
      ∃ t, procValidate h hs s = .ok (h == enc64 (absorb I2 (x ++ y))) t ∧ Ready t)
end

