-- ==== Sys2Proof/Laws/Decode.lean ====
section
/-! SUPPORT. A packed command word as a number, its fields, and masking it field by field. -/

namespace Sys2Proof

theorem toNat_append_eq {n m : Nat} (x : BitVec n) (y : BitVec m) :
    (x ++ y).toNat = x.toNat * 2 ^ m + y.toNat := by
  rw [BitVec.toNat_append, ← Nat.shiftLeft_add_eq_or_of_lt y.isLt, Nat.shiftLeft_eq]

/-- A command word as a number (30_encoding.md R91). -/
theorem toNat_packWord (op : BitVec 8) (ra rb rc : BitVec 4) (imm : Byte) :
    (packWord op ra rb rc imm).toNat =
      op.toNat * 2 ^ 24 + ra.toNat * 2 ^ 20 + rb.toNat * 2 ^ 16 + rc.toNat * 2 ^ 12 +
        imm.toNat := by
  have hz : (0 : BitVec 4).toNat = 0 := rfl
  simp only [packWord, toNat_append_eq, hz]
  omega

section
variable (op : BitVec 8) (ra rb rc : BitVec 4) (imm : Byte)

/-- A field of a packed word, from its numeric value. -/
theorem extract_packWord {start len : Nat} (v : BitVec len)
    (h : (op.toNat * 2 ^ 24 + ra.toNat * 2 ^ 20 + rb.toNat * 2 ^ 16 + rc.toNat * 2 ^ 12 +
      imm.toNat) / 2 ^ start % 2 ^ len = v.toNat) :
    (packWord op ra rb rc imm).extractLsb' start len = v := by
  apply BitVec.eq_of_toNat_eq
  rw [BitVec.extractLsb'_toNat, toNat_packWord, Nat.shiftRight_eq_div_pow, h]

@[simp] theorem opField_packWord : opField (packWord op ra rb rc imm) = op :=
  extract_packWord op ra rb rc imm op (by omega)

@[simp] theorem raF_packWord : raF (packWord op ra rb rc imm) = ra.toFin :=
  congrArg BitVec.toFin (extract_packWord op ra rb rc imm ra (by omega))

@[simp] theorem rbF_packWord : rbF (packWord op ra rb rc imm) = rb.toFin :=
  congrArg BitVec.toFin (extract_packWord op ra rb rc imm rb (by omega))

@[simp] theorem rcF_packWord : rcF (packWord op ra rb rc imm) = rc.toFin :=
  congrArg BitVec.toFin (extract_packWord op ra rb rc imm rc (by omega))

@[simp] theorem raM_packWord : raM (packWord op ra rb rc imm) = (ra.setWidth 2).toFin :=
  congrArg BitVec.toFin (extract_packWord op ra rb rc imm (ra.setWidth 2) (by simp; omega))

@[simp] theorem rbM_packWord : rbM (packWord op ra rb rc imm) = (rb.setWidth 2).toFin :=
  congrArg BitVec.toFin (extract_packWord op ra rb rc imm (rb.setWidth 2) (by simp; omega))

@[simp] theorem rcM_packWord : rcM (packWord op ra rb rc imm) = (rc.setWidth 2).toFin :=
  congrArg BitVec.toFin (extract_packWord op ra rb rc imm (rc.setWidth 2) (by simp; omega))

@[simp] theorem immField_packWord : immField (packWord op ra rb rc imm) = imm :=
  extract_packWord op ra rb rc imm imm (by omega)

@[simp] theorem countField_packWord :
    countField (packWord op ra rb rc imm) = imm.setWidth 7 :=
  extract_packWord op ra rb rc imm (imm.setWidth 7) (by simp; omega)

@[simp] theorem slotField_packWord :
    slotField (packWord op ra rb rc imm) = (imm.setWidth 2).toFin :=
  congrArg BitVec.toFin (extract_packWord op ra rb rc imm (imm.setWidth 2) (by simp; omega))

/-- Masking a packed word masks each field; the `z` field stays 0. -/
theorem packWord_and (mo : BitVec 8) (ma mb mc mz : BitVec 4) (mi : BitVec 8) :
    packWord op ra rb rc imm &&& (mo ++ ma ++ mb ++ mc ++ mz ++ mi : BitVec 32) =
      packWord (op &&& mo) (ra &&& ma) (rb &&& mb) (rc &&& mc) (imm &&& mi) := by
  have hz : (0 : BitVec 4) &&& mz = 0 := BitVec.zero_and
  rw [packWord, packWord, ← hz, ← BitVec.and_append, ← BitVec.and_append, ← BitVec.and_append,
    ← BitVec.and_append, ← BitVec.and_append, hz]

end

@[simp] theorem toFin_fIndex (r : FReg) : (fIndex r).toFin = r := by
  revert r; decide

@[simp] theorem toFin_mIndex (r : MReg) : ((mIndex r).setWidth 2).toFin = r := by
  revert r; decide

@[simp] theorem toFin_slotImm (k : Slot) : ((slotImm k).setWidth 2).toFin = k := by
  revert k; decide

@[simp] theorem toNat_fIndex (r : FReg) : (fIndex r).toNat = r.val := by revert r; decide
@[simp] theorem toNat_mIndex (r : MReg) : (mIndex r).toNat = r.val := by revert r; decide
@[simp] theorem toNat_slotImm (k : Slot) : (slotImm k).toNat = k.val := by revert k; decide

/-- The must-be-zero bits of a matrix index (30_encoding.md R93). -/
@[simp] theorem mIndex_and (r : MReg) : mIndex r &&& 0xC#4 = 0#4 := by revert r; decide

/-- The must-be-zero bits of a slot's immediate (30_encoding.md R94). -/
@[simp] theorem slotImm_and (k : Slot) : slotImm k &&& 0xFC#8 = 0#8 := by revert k; decide

/-- The must-be-zero bit of a count's immediate (30_encoding.md R94). -/
@[simp] theorem countImm_and (n : BitVec 7) : n.setWidth 8 &&& 0x80#8 = 0#8 := by
  apply BitVec.eq_of_getLsbD_eq
  intro i hi
  have : i < 8 := hi
  interval_cases i <;> simp

/-- A word is the sequence of its six fields (30_encoding.md R91). -/
theorem word_eq_fields (w : Word) :
    w = (opField w ++ w.extractLsb' 20 4 ++ w.extractLsb' 16 4 ++ w.extractLsb' 12 4 ++
      w.extractLsb' 8 4 ++ immField w : BitVec 32) := by
  apply BitVec.eq_of_toNat_eq
  simp only [toNat_append_eq, opField, immField, BitVec.extractLsb'_toNat,
    Nat.shiftRight_eq_div_pow]
  have := w.isLt
  omega

theorem append_inj_bits {n m : Nat} {a b : BitVec n} {c d : BitVec m} (h : a ++ c = b ++ d) :
    a = b ∧ c = d := by
  have h' := congrArg BitVec.toNat h
  rw [toNat_append_eq, toNat_append_eq] at h'
  have h1 : c.toNat = d.toNat := by
    have := congrArg (· % 2 ^ m) h'
    simpa [Nat.mul_add_mod_self_right, Nat.mod_eq_of_lt c.isLt, Nat.mod_eq_of_lt d.isLt] using this
  rw [h1] at h'
  exact ⟨BitVec.eq_of_toNat_eq (Nat.eq_of_mul_eq_mul_right (by positivity)
    (Nat.add_right_cancel h')), BitVec.eq_of_toNat_eq h1⟩

/-- A masked word equals a pattern exactly when each masked field does. -/
theorem fields_of_masked {w : Word} {mo po mi pi : BitVec 8} {ma mb mc mz pa pb pc pz : BitVec 4}
    (h : w &&& (mo ++ ma ++ mb ++ mc ++ mz ++ mi : BitVec (8 + 4 + 4 + 4 + 4 + 8)) =
      (po ++ pa ++ pb ++ pc ++ pz ++ pi : BitVec (8 + 4 + 4 + 4 + 4 + 8))) :
    opField w &&& mo = po ∧ w.extractLsb' 20 4 &&& ma = pa ∧ w.extractLsb' 16 4 &&& mb = pb ∧
      w.extractLsb' 12 4 &&& mc = pc ∧ w.extractLsb' 8 4 &&& mz = pz ∧ immField w &&& mi = pi := by
  rw [word_eq_fields w] at h
  generalize opField w = o at *
  generalize w.extractLsb' 20 4 = a at *
  generalize w.extractLsb' 16 4 = b at *
  generalize w.extractLsb' 12 4 = c at *
  generalize w.extractLsb' 8 4 = z at *
  generalize immField w = m at *
  have h2 : ((o &&& mo) ++ (a &&& ma) ++ (b &&& mb) ++ (c &&& mc) ++ (z &&& mz) ++ (m &&& mi)) =
      (po ++ pa ++ pb ++ pc ++ pz ++ pi) := by
    rw [← BitVec.and_append, ← BitVec.and_append, ← BitVec.and_append, ← BitVec.and_append,
      ← BitVec.and_append]
    exact h
  obtain ⟨h2, h6⟩ := append_inj_bits h2
  obtain ⟨h2, h5⟩ := append_inj_bits h2
  obtain ⟨h2, h4⟩ := append_inj_bits h2
  obtain ⟨h2, h3⟩ := append_inj_bits h2
  obtain ⟨h1, h2⟩ := append_inj_bits h2
  exact ⟨h1, h2, h3, h4, h5, h6⟩

/-- A word whose `z` field is 0 is the packing of its other fields. -/
theorem packWord_fields {w : Word} (h : w.extractLsb' 8 4 = 0) :
    packWord (opField w) (w.extractLsb' 20 4) (w.extractLsb' 16 4) (w.extractLsb' 12 4)
      (immField w) = w := by
  conv_rhs => rw [word_eq_fields w, h]
  rfl

/-- A field-register index read from a word is its 4-bit field. -/
theorem fIndex_extract (w : Word) (k : Nat) :
    fIndex (w.extractLsb' k 4).toFin = w.extractLsb' k 4 := by
  generalize w.extractLsb' k 4 = x
  revert x; decide

/-- A matrix-register index read from a word is its 4-bit field, when bits [3:2] are 0. -/
theorem mIndex_extract {w : Word} {k : Nat} (h : w.extractLsb' k 4 &&& 0xC#4 = 0#4) :
    mIndex (w.extractLsb' k 2).toFin = w.extractLsb' k 4 := by
  have he : w.extractLsb' k 2 = (w.extractLsb' k 4).setWidth 2 := by
    apply BitVec.eq_of_toNat_eq; simp [BitVec.extractLsb'_toNat]
  rw [he]
  generalize w.extractLsb' k 4 = x at h
  revert x h; decide

end Sys2Proof
end

