-- ==== Sys2Proof/Laws/FieldArith.lean ====
section
/-! SUPPORT. Field arithmetic read in ZMod P: each operation's image, so that a law of F is a law
of a commutative ring, and the inverse by Fermat's theorem. -/

namespace Sys2Proof.Machine

/-- The modulus is the Mersenne prime 2^127 − 1 (Lucas–Lehmer). -/
theorem P_prime : Nat.Prime P :=
  show (mersenne 127).Prime from lucas_lehmer_sufficiency _ (by norm_num) (by norm_num)

/-- The residue class of a canonical value. -/
def feZ (x : Fe) : ZMod P := (x.val : ZMod P)

theorem feZ_inj {x y : Fe} : feZ x = feZ y ↔ x = y := by
  refine ⟨fun h => Fin.ext ?_, fun h => h ▸ rfl⟩
  have := (ZMod.natCast_eq_natCast_iff _ _ _).mp h
  rwa [Nat.ModEq, Nat.mod_eq_of_lt x.isLt, Nat.mod_eq_of_lt y.isLt] at this

@[simp] theorem val_ofNat (n : Nat) : (Fe.ofNat n).val = n % P := rfl

theorem feZ_ofNat (n : Nat) : feZ (.ofNat n) = (n : ZMod P) := by simp [feZ]

@[simp] theorem feZ_zero : feZ (.ofNat 0) = 0 := by rw [feZ_ofNat, Nat.cast_zero]

@[simp] theorem feZ_one : feZ (.ofNat 1) = 1 := by rw [feZ_ofNat, Nat.cast_one]

theorem cast_P_sub (y : Fe) : ((P - y.val : Nat) : ZMod P) = -feZ y := by
  rw [Nat.cast_sub y.isLt.le, ZMod.natCast_self, zero_sub]; rfl

@[simp] theorem feZ_addF (x y : Fe) : feZ (addF x y) = feZ x + feZ y := by
  rw [addF, feZ_ofNat, Nat.cast_add]; rfl

@[simp] theorem feZ_subF (x y : Fe) : feZ (subF x y) = feZ x - feZ y := by
  rw [subF, feZ_ofNat, Nat.cast_add, cast_P_sub, sub_eq_add_neg]; rfl

@[simp] theorem feZ_mulF (x y : Fe) : feZ (mulF x y) = feZ x * feZ y := by
  rw [mulF, feZ_ofNat, Nat.cast_mul]; rfl

@[simp] theorem feZ_negF (y : Fe) : feZ (negF y) = -feZ y := by
  rw [negF, feZ_ofNat, cast_P_sub]

/-- Square and multiply computes the power. -/
theorem powMod_eq (x bits e : Nat) (h : e < 2 ^ bits) : powMod x bits e % P = x ^ e % P := by
  induction bits generalizing e with
  | zero => simp [powMod, show e = 0 by simpa using h]
  | succ k ih =>
    have hk := ih (e / 2) (by rw [pow_succ] at h; omega)
    have hsq : powMod x k (e / 2) ^ 2 % P = x ^ (2 * (e / 2)) % P := by
      rw [Nat.pow_mod, hk, ← Nat.pow_mod, ← pow_mul, mul_comm]
    simp only [powMod, Nat.mod_mod, hsq]
    split
    · next ho =>
      rw [Nat.mod_mul_mod, ← pow_succ, show 2 * (e / 2) + 1 = e by omega]
    · next ho => rw [mul_one, Nat.mod_mod, show 2 * (e / 2) = e by omega]

theorem feZ_invF (x : Fe) : feZ (invF x) = feZ x ^ (P - 2) := by
  rw [invF, feZ_ofNat, ← ZMod.natCast_mod, powMod_eq _ _ _ (by decide), ZMod.natCast_mod,
    Nat.cast_pow]
  rfl

/-- The inverse of a nonzero element. -/
theorem mulF_invF {x : Fe} (h : x.val ≠ 0) : mulF x (invF x) = .ofNat 1 := by
  have : Fact P.Prime := ⟨P_prime⟩
  have hx : feZ x ≠ 0 := fun e => h (by
    have := feZ_inj.mp (e.trans feZ_zero.symm)
    rw [this]; rfl)
  rw [← feZ_inj, feZ_mulF, feZ_invF, feZ_one, ← pow_succ',
    show P - 2 + 1 = P - 1 from rfl, ZMod.pow_card_sub_one_eq_one hx]

end Sys2Proof.Machine
end

