-- ==== Sys2Proof/Laws/State.lean ====
section
/-! SUPPORT. One lemma per field per update of State, each true by rfl, so that no later proof
unfolds a record update. -/

namespace Sys2Proof.Machine

variable (s : State)

/-! `drew` -/

@[simp] theorem drew_f (n : Nat) : (s.drew n).f = s.f := rfl
@[simp] theorem drew_m (n : Nat) : (s.drew n).m = s.m := rfl
@[simp] theorem drew_digest (n : Nat) : (s.drew n).digest = s.digest := rfl
@[simp] theorem drew_xb (n : Nat) : (s.drew n).xb = s.xb := rfl
@[simp] theorem drew_pend (n : Nat) : (s.drew n).pend = s.pend := rfl
@[simp] theorem drew_eqFlag (n : Nat) : (s.drew n).eqFlag = s.eqFlag := rfl
@[simp] theorem drew_ovr (n : Nat) : (s.drew n).ovr = s.ovr := rfl
@[simp] theorem drew_errcode (n : Nat) : (s.drew n).errcode = s.errcode := rfl
@[simp] theorem drew_errcmd (n : Nat) : (s.drew n).errcmd = s.errcmd := rfl
@[simp] theorem drew_faults (n : Nat) : (s.drew n).faults = s.faults := rfl
@[simp] theorem drew_inputs (n : Nat) : (s.drew n).inputs = s.inputs := rfl
@[simp] theorem drew_draws (n : Nat) : (s.drew n).draws = s.draws + n := rfl
@[simp] theorem drew_readData (n : Nat) : (s.drew n).readData = s.readData := rfl

/-! `memWrite` -/

@[simp] theorem memWrite_f (k : Nat) (bs : List Byte) : (s.memWrite k bs).f = s.f := rfl
@[simp] theorem memWrite_m (k : Nat) (bs : List Byte) : (s.memWrite k bs).m = s.m := rfl
@[simp] theorem memWrite_digest (k : Nat) (bs : List Byte) :
    (s.memWrite k bs).digest = s.digest := rfl
@[simp] theorem memWrite_xb (k : Nat) (bs : List Byte) :
    (s.memWrite k bs).xb = s.xb.writeBytes k bs := rfl
@[simp] theorem memWrite_pend (k : Nat) (bs : List Byte) : (s.memWrite k bs).pend = s.pend := rfl
@[simp] theorem memWrite_eqFlag (k : Nat) (bs : List Byte) :
    (s.memWrite k bs).eqFlag = s.eqFlag := rfl
@[simp] theorem memWrite_ovr (k : Nat) (bs : List Byte) : (s.memWrite k bs).ovr = s.ovr := rfl
@[simp] theorem memWrite_errcode (k : Nat) (bs : List Byte) :
    (s.memWrite k bs).errcode = s.errcode := rfl
@[simp] theorem memWrite_errcmd (k : Nat) (bs : List Byte) :
    (s.memWrite k bs).errcmd = s.errcmd := rfl
@[simp] theorem memWrite_faults (k : Nat) (bs : List Byte) :
    (s.memWrite k bs).faults = s.faults := rfl
@[simp] theorem memWrite_inputs (k : Nat) (bs : List Byte) :
    (s.memWrite k bs).inputs = s.inputs := rfl
@[simp] theorem memWrite_draws (k : Nat) (bs : List Byte) :
    (s.memWrite k bs).draws = s.draws := rfl
@[simp] theorem memWrite_readData (k : Nat) (bs : List Byte) :
    (s.memWrite k bs).readData = s.readData := rfl

/-! `writeF` -/

@[simp] theorem writeF_f (r : FReg) (v : Fe) : (s.writeF r v).f = s.f.set r ⟨v, true⟩ := rfl
@[simp] theorem writeF_m (r : FReg) (v : Fe) : (s.writeF r v).m = s.m := rfl
@[simp] theorem writeF_digest (r : FReg) (v : Fe) : (s.writeF r v).digest = s.digest := rfl
@[simp] theorem writeF_xb (r : FReg) (v : Fe) : (s.writeF r v).xb = s.xb := rfl
@[simp] theorem writeF_pend (r : FReg) (v : Fe) : (s.writeF r v).pend = s.pend := rfl
@[simp] theorem writeF_eqFlag (r : FReg) (v : Fe) : (s.writeF r v).eqFlag = s.eqFlag := rfl
@[simp] theorem writeF_ovr (r : FReg) (v : Fe) : (s.writeF r v).ovr = s.ovr := rfl
@[simp] theorem writeF_errcode (r : FReg) (v : Fe) : (s.writeF r v).errcode = s.errcode := rfl
@[simp] theorem writeF_errcmd (r : FReg) (v : Fe) : (s.writeF r v).errcmd = s.errcmd := rfl
@[simp] theorem writeF_faults (r : FReg) (v : Fe) : (s.writeF r v).faults = s.faults := rfl
@[simp] theorem writeF_inputs (r : FReg) (v : Fe) : (s.writeF r v).inputs = s.inputs := rfl
@[simp] theorem writeF_draws (r : FReg) (v : Fe) : (s.writeF r v).draws = s.draws := rfl
@[simp] theorem writeF_readData (r : FReg) (v : Fe) : (s.writeF r v).readData = s.readData := rfl

/-! `writeM` -/

@[simp] theorem writeM_f (r : MReg) (v : Mat) : (s.writeM r v).f = s.f := rfl
@[simp] theorem writeM_m (r : MReg) (v : Mat) : (s.writeM r v).m = s.m.set r ⟨v, true⟩ := rfl
@[simp] theorem writeM_digest (r : MReg) (v : Mat) : (s.writeM r v).digest = s.digest := rfl
@[simp] theorem writeM_xb (r : MReg) (v : Mat) : (s.writeM r v).xb = s.xb := rfl
@[simp] theorem writeM_pend (r : MReg) (v : Mat) : (s.writeM r v).pend = s.pend := rfl
@[simp] theorem writeM_eqFlag (r : MReg) (v : Mat) : (s.writeM r v).eqFlag = s.eqFlag := rfl
@[simp] theorem writeM_ovr (r : MReg) (v : Mat) : (s.writeM r v).ovr = s.ovr := rfl
@[simp] theorem writeM_errcode (r : MReg) (v : Mat) : (s.writeM r v).errcode = s.errcode := rfl
@[simp] theorem writeM_errcmd (r : MReg) (v : Mat) : (s.writeM r v).errcmd = s.errcmd := rfl
@[simp] theorem writeM_faults (r : MReg) (v : Mat) : (s.writeM r v).faults = s.faults := rfl
@[simp] theorem writeM_inputs (r : MReg) (v : Mat) : (s.writeM r v).inputs = s.inputs := rfl
@[simp] theorem writeM_draws (r : MReg) (v : Mat) : (s.writeM r v).draws = s.draws := rfl
@[simp] theorem writeM_readData (r : MReg) (v : Mat) : (s.writeM r v).readData = s.readData := rfl

/-! `setDigest` -/

@[simp] theorem setDigest_f (v : Mat) : (s.setDigest v).f = s.f := rfl
@[simp] theorem setDigest_m (v : Mat) : (s.setDigest v).m = s.m := rfl
@[simp] theorem setDigest_digest (v : Mat) : (s.setDigest v).digest = v := rfl
@[simp] theorem setDigest_xb (v : Mat) : (s.setDigest v).xb = s.xb := rfl
@[simp] theorem setDigest_pend (v : Mat) : (s.setDigest v).pend = s.pend := rfl
@[simp] theorem setDigest_eqFlag (v : Mat) : (s.setDigest v).eqFlag = s.eqFlag := rfl
@[simp] theorem setDigest_ovr (v : Mat) : (s.setDigest v).ovr = s.ovr := rfl
@[simp] theorem setDigest_errcode (v : Mat) : (s.setDigest v).errcode = s.errcode := rfl
@[simp] theorem setDigest_errcmd (v : Mat) : (s.setDigest v).errcmd = s.errcmd := rfl
@[simp] theorem setDigest_faults (v : Mat) : (s.setDigest v).faults = s.faults := rfl
@[simp] theorem setDigest_inputs (v : Mat) : (s.setDigest v).inputs = s.inputs := rfl
@[simp] theorem setDigest_draws (v : Mat) : (s.setDigest v).draws = s.draws := rfl
@[simp] theorem setDigest_readData (v : Mat) : (s.setDigest v).readData = s.readData := rfl

/-! `recordUnwritten` -/

@[simp] theorem recordUnwritten_f (r : RegName) (w : Word) :
    (s.recordUnwritten r w).f = s.f := rfl
@[simp] theorem recordUnwritten_m (r : RegName) (w : Word) :
    (s.recordUnwritten r w).m = s.m := rfl
@[simp] theorem recordUnwritten_digest (r : RegName) (w : Word) :
    (s.recordUnwritten r w).digest = s.digest := rfl
@[simp] theorem recordUnwritten_xb (r : RegName) (w : Word) :
    (s.recordUnwritten r w).xb = s.xb := rfl
@[simp] theorem recordUnwritten_pend (r : RegName) (w : Word) :
    (s.recordUnwritten r w).pend = none := rfl
@[simp] theorem recordUnwritten_eqFlag (r : RegName) (w : Word) :
    (s.recordUnwritten r w).eqFlag = s.eqFlag := rfl
@[simp] theorem recordUnwritten_ovr (r : RegName) (w : Word) :
    (s.recordUnwritten r w).ovr = s.ovr := rfl
@[simp] theorem recordUnwritten_errcode (r : RegName) (w : Word) :
    (s.recordUnwritten r w).errcode = s.errcode := rfl
@[simp] theorem recordUnwritten_errcmd (r : RegName) (w : Word) :
    (s.recordUnwritten r w).errcmd = s.errcmd := rfl
@[simp] theorem recordUnwritten_faults (r : RegName) (w : Word) :
    (s.recordUnwritten r w).faults = s.faults ++ [⟨r, w⟩] := rfl
@[simp] theorem recordUnwritten_inputs (r : RegName) (w : Word) :
    (s.recordUnwritten r w).inputs = s.inputs := rfl
@[simp] theorem recordUnwritten_draws (r : RegName) (w : Word) :
    (s.recordUnwritten r w).draws = s.draws := rfl
@[simp] theorem recordUnwritten_readData (r : RegName) (w : Word) :
    (s.recordUnwritten r w).readData = s.readData := rfl

/-! `complete` -/

@[simp] theorem complete_f : (s.complete).f = s.f := rfl
@[simp] theorem complete_m : (s.complete).m = s.m := rfl
@[simp] theorem complete_digest : (s.complete).digest = s.digest := rfl
@[simp] theorem complete_xb : (s.complete).xb = s.xb := rfl
@[simp] theorem complete_pend : (s.complete).pend = none := rfl
@[simp] theorem complete_eqFlag : (s.complete).eqFlag = s.eqFlag := rfl
@[simp] theorem complete_ovr : (s.complete).ovr = s.ovr := rfl
@[simp] theorem complete_errcode : (s.complete).errcode = s.errcode := rfl
@[simp] theorem complete_errcmd : (s.complete).errcmd = s.errcmd := rfl
@[simp] theorem complete_faults : (s.complete).faults = s.faults := rfl
@[simp] theorem complete_inputs : (s.complete).inputs = s.inputs := rfl
@[simp] theorem complete_draws : (s.complete).draws = s.draws := rfl
@[simp] theorem complete_readData : (s.complete).readData = s.readData := rfl

/-! `raise` -/

@[simp] theorem raise_f (e : ErrorKind) (w : Word) : (s.raise e w).f = s.f := rfl
@[simp] theorem raise_m (e : ErrorKind) (w : Word) : (s.raise e w).m = s.m := rfl
@[simp] theorem raise_digest (e : ErrorKind) (w : Word) : (s.raise e w).digest = s.digest := rfl
@[simp] theorem raise_xb (e : ErrorKind) (w : Word) : (s.raise e w).xb = s.xb := rfl
@[simp] theorem raise_pend (e : ErrorKind) (w : Word) : (s.raise e w).pend = none := rfl
@[simp] theorem raise_eqFlag (e : ErrorKind) (w : Word) : (s.raise e w).eqFlag = s.eqFlag := rfl
@[simp] theorem raise_ovr (e : ErrorKind) (w : Word) : (s.raise e w).ovr = s.ovr := rfl
@[simp] theorem raise_errcode (e : ErrorKind) (w : Word) : (s.raise e w).errcode = e.code := rfl
@[simp] theorem raise_errcmd (e : ErrorKind) (w : Word) : (s.raise e w).errcmd = w := rfl
@[simp] theorem raise_faults (e : ErrorKind) (w : Word) : (s.raise e w).faults = s.faults := rfl
@[simp] theorem raise_inputs (e : ErrorKind) (w : Word) : (s.raise e w).inputs = s.inputs := rfl
@[simp] theorem raise_draws (e : ErrorKind) (w : Word) : (s.raise e w).draws = s.draws := rfl
@[simp] theorem raise_readData (e : ErrorKind) (w : Word) :
    (s.raise e w).readData = s.readData := rfl

/-! `clearErrors` -/

@[simp] theorem clearErrors_f : (s.clearErrors).f = s.f := rfl
@[simp] theorem clearErrors_m : (s.clearErrors).m = s.m := rfl
@[simp] theorem clearErrors_digest : (s.clearErrors).digest = s.digest := rfl
@[simp] theorem clearErrors_xb : (s.clearErrors).xb = s.xb := rfl
@[simp] theorem clearErrors_pend : (s.clearErrors).pend = s.pend := rfl
@[simp] theorem clearErrors_eqFlag : (s.clearErrors).eqFlag = s.eqFlag := rfl
@[simp] theorem clearErrors_ovr : (s.clearErrors).ovr = false := rfl
@[simp] theorem clearErrors_errcode : (s.clearErrors).errcode = 0 := rfl
@[simp] theorem clearErrors_errcmd : (s.clearErrors).errcmd = 0 := rfl
@[simp] theorem clearErrors_faults : (s.clearErrors).faults = s.faults := rfl
@[simp] theorem clearErrors_inputs : (s.clearErrors).inputs = s.inputs := rfl
@[simp] theorem clearErrors_draws : (s.clearErrors).draws = s.draws := rfl
@[simp] theorem clearErrors_readData : (s.clearErrors).readData = s.readData := rfl

/-! `resetCore` -/

@[simp] theorem resetCore_f : (s.resetCore).f = freeF s.draws := rfl
@[simp] theorem resetCore_m : (s.resetCore).m = freeM (s.draws + 16) := rfl
@[simp] theorem resetCore_digest : (s.resetCore).digest = I2 := rfl
@[simp] theorem resetCore_xb : (s.resetCore).xb = [] := rfl
@[simp] theorem resetCore_pend : (s.resetCore).pend = none := rfl
@[simp] theorem resetCore_eqFlag : (s.resetCore).eqFlag = false := rfl
@[simp] theorem resetCore_ovr : (s.resetCore).ovr = false := rfl
@[simp] theorem resetCore_errcode : (s.resetCore).errcode = 0 := rfl
@[simp] theorem resetCore_errcmd : (s.resetCore).errcmd = 0 := rfl
@[simp] theorem resetCore_faults : (s.resetCore).faults = s.faults := rfl
@[simp] theorem resetCore_inputs : (s.resetCore).inputs = s.inputs := rfl
@[simp] theorem resetCore_draws : (s.resetCore).draws = s.draws + 32 := rfl
@[simp] theorem resetCore_readData : (s.resetCore).readData = s.readData := rfl

/-! `setEq` -/

@[simp] theorem setEq_f (v : Bool) : (s.setEq v).f = s.f := rfl
@[simp] theorem setEq_m (v : Bool) : (s.setEq v).m = s.m := rfl
@[simp] theorem setEq_digest (v : Bool) : (s.setEq v).digest = s.digest := rfl
@[simp] theorem setEq_xb (v : Bool) : (s.setEq v).xb = s.xb := rfl
@[simp] theorem setEq_pend (v : Bool) : (s.setEq v).pend = s.pend := rfl
@[simp] theorem setEq_eqFlag (v : Bool) : (s.setEq v).eqFlag = v := rfl
@[simp] theorem setEq_ovr (v : Bool) : (s.setEq v).ovr = s.ovr := rfl
@[simp] theorem setEq_errcode (v : Bool) : (s.setEq v).errcode = s.errcode := rfl
@[simp] theorem setEq_errcmd (v : Bool) : (s.setEq v).errcmd = s.errcmd := rfl
@[simp] theorem setEq_faults (v : Bool) : (s.setEq v).faults = s.faults := rfl
@[simp] theorem setEq_inputs (v : Bool) : (s.setEq v).inputs = s.inputs := rfl
@[simp] theorem setEq_draws (v : Bool) : (s.setEq v).draws = s.draws := rfl
@[simp] theorem setEq_readData (v : Bool) : (s.setEq v).readData = s.readData := rfl

/-! `setOvr` -/

@[simp] theorem setOvr_f : (s.setOvr).f = s.f := rfl
@[simp] theorem setOvr_m : (s.setOvr).m = s.m := rfl
@[simp] theorem setOvr_digest : (s.setOvr).digest = s.digest := rfl
@[simp] theorem setOvr_xb : (s.setOvr).xb = s.xb := rfl
@[simp] theorem setOvr_pend : (s.setOvr).pend = s.pend := rfl
@[simp] theorem setOvr_eqFlag : (s.setOvr).eqFlag = s.eqFlag := rfl
@[simp] theorem setOvr_ovr : (s.setOvr).ovr = true := rfl
@[simp] theorem setOvr_errcode : (s.setOvr).errcode = s.errcode := rfl
@[simp] theorem setOvr_errcmd : (s.setOvr).errcmd = s.errcmd := rfl
@[simp] theorem setOvr_faults : (s.setOvr).faults = s.faults := rfl
@[simp] theorem setOvr_inputs : (s.setOvr).inputs = s.inputs := rfl
@[simp] theorem setOvr_draws : (s.setOvr).draws = s.draws := rfl
@[simp] theorem setOvr_readData : (s.setOvr).readData = s.readData := rfl

/-! `reply` -/

@[simp] theorem reply_f (v : ReadValue) : (s.reply v).f = s.f := rfl
@[simp] theorem reply_m (v : ReadValue) : (s.reply v).m = s.m := rfl
@[simp] theorem reply_digest (v : ReadValue) : (s.reply v).digest = s.digest := rfl
@[simp] theorem reply_xb (v : ReadValue) : (s.reply v).xb = s.xb := rfl
@[simp] theorem reply_pend (v : ReadValue) : (s.reply v).pend = s.pend := rfl
@[simp] theorem reply_eqFlag (v : ReadValue) : (s.reply v).eqFlag = s.eqFlag := rfl
@[simp] theorem reply_ovr (v : ReadValue) : (s.reply v).ovr = s.ovr := rfl
@[simp] theorem reply_errcode (v : ReadValue) : (s.reply v).errcode = s.errcode := rfl
@[simp] theorem reply_errcmd (v : ReadValue) : (s.reply v).errcmd = s.errcmd := rfl
@[simp] theorem reply_faults (v : ReadValue) : (s.reply v).faults = s.faults := rfl
@[simp] theorem reply_inputs (v : ReadValue) : (s.reply v).inputs = s.inputs := rfl
@[simp] theorem reply_draws (v : ReadValue) : (s.reply v).draws = s.draws := rfl
@[simp] theorem reply_readData (v : ReadValue) : (s.reply v).readData = some v := rfl

/-! `accept` -/

@[simp] theorem accept_f (w : Word) : (s.accept w).f = s.f := rfl
@[simp] theorem accept_m (w : Word) : (s.accept w).m = s.m := rfl
@[simp] theorem accept_digest (w : Word) : (s.accept w).digest = s.digest := rfl
@[simp] theorem accept_xb (w : Word) : (s.accept w).xb = s.xb := rfl
@[simp] theorem accept_pend (w : Word) : (s.accept w).pend = some w := rfl
@[simp] theorem accept_eqFlag (w : Word) : (s.accept w).eqFlag = s.eqFlag := rfl
@[simp] theorem accept_ovr (w : Word) : (s.accept w).ovr = s.ovr := rfl
@[simp] theorem accept_errcode (w : Word) : (s.accept w).errcode = s.errcode := rfl
@[simp] theorem accept_errcmd (w : Word) : (s.accept w).errcmd = s.errcmd := rfl
@[simp] theorem accept_faults (w : Word) : (s.accept w).faults = s.faults := rfl
@[simp] theorem accept_inputs (w : Word) : (s.accept w).inputs = s.inputs := rfl
@[simp] theorem accept_draws (w : Word) : (s.accept w).draws = s.draws := rfl
@[simp] theorem accept_readData (w : Word) : (s.accept w).readData = s.readData := rfl

/-! `withInputs` -/

@[simp] theorem withInputs_f (l : List Input) : (s.withInputs l).f = s.f := rfl
@[simp] theorem withInputs_m (l : List Input) : (s.withInputs l).m = s.m := rfl
@[simp] theorem withInputs_digest (l : List Input) : (s.withInputs l).digest = s.digest := rfl
@[simp] theorem withInputs_xb (l : List Input) : (s.withInputs l).xb = s.xb := rfl
@[simp] theorem withInputs_pend (l : List Input) : (s.withInputs l).pend = s.pend := rfl
@[simp] theorem withInputs_eqFlag (l : List Input) : (s.withInputs l).eqFlag = s.eqFlag := rfl
@[simp] theorem withInputs_ovr (l : List Input) : (s.withInputs l).ovr = s.ovr := rfl
@[simp] theorem withInputs_errcode (l : List Input) : (s.withInputs l).errcode = s.errcode := rfl
@[simp] theorem withInputs_errcmd (l : List Input) : (s.withInputs l).errcmd = s.errcmd := rfl
@[simp] theorem withInputs_faults (l : List Input) : (s.withInputs l).faults = s.faults := rfl
@[simp] theorem withInputs_inputs (l : List Input) : (s.withInputs l).inputs = l := rfl
@[simp] theorem withInputs_draws (l : List Input) : (s.withInputs l).draws = s.draws := rfl
@[simp] theorem withInputs_readData (l : List Input) :
    (s.withInputs l).readData = s.readData := rfl

/-! `placed` -/

@[simp] theorem placed_f (w : Word) : (s.placed w).f = s.f := rfl
@[simp] theorem placed_m (w : Word) : (s.placed w).m = s.m := rfl
@[simp] theorem placed_digest (w : Word) : (s.placed w).digest = s.digest := rfl
@[simp] theorem placed_xb (w : Word) : (s.placed w).xb = s.xb := rfl
@[simp] theorem placed_pend (w : Word) : (s.placed w).pend = some w := rfl
@[simp] theorem placed_eqFlag (w : Word) : (s.placed w).eqFlag = s.eqFlag := rfl
@[simp] theorem placed_ovr (w : Word) : (s.placed w).ovr = s.ovr := rfl
@[simp] theorem placed_errcode (w : Word) : (s.placed w).errcode = s.errcode := rfl
@[simp] theorem placed_errcmd (w : Word) : (s.placed w).errcmd = s.errcmd := rfl
@[simp] theorem placed_faults (w : Word) : (s.placed w).faults = s.faults := rfl
@[simp] theorem placed_inputs (w : Word) : (s.placed w).inputs = .coreTurn :: s.inputs := rfl
@[simp] theorem placed_draws (w : Word) : (s.placed w).draws = s.draws := rfl
@[simp] theorem placed_readData (w : Word) : (s.placed w).readData = s.readData := rfl

end Sys2Proof.Machine
end

