-- ==== Sys2Proof/Laws/Memory.lean ====
section
/-! SUPPORT. The byte memory: read after write, the frame of a write, and that every operation
keeps the canonical form. -/

namespace Sys2Proof.Machine

theorem Memory.read_write_self (m : Memory) (k : Nat) (v : Byte) :
    (Memory.write m k v).read k = some v := by
  induction m with
  | nil => simp [Memory.write, Memory.read]
  | cons c m ih =>
    obtain ⟨a, b⟩ := c
    simp only [Memory.write]
    split
    · simp [Memory.read]
    · split
      · simp [Memory.read]
      · next h => simp [Memory.read, Ne.symm h, ih]

theorem Memory.read_write_of_ne (m : Memory) (k j : Nat) (v : Byte) (h : j ≠ k) :
    (Memory.write m k v).read j = Memory.read m j := by
  induction m with
  | nil => simp [Memory.write, Memory.read, Ne.symm h]
  | cons c m ih =>
    obtain ⟨a, b⟩ := c
    simp only [Memory.write]
    split
    · simp [Memory.read, Ne.symm h]
    · split
      · next h' => subst h'; simp [Memory.read, Ne.symm h]
      · simp [Memory.read, ih]

theorem Memory.write_write (m : Memory) (k : Nat) (v : Byte) :
    (Memory.write m k v).write k v = Memory.write m k v := by
  induction m with
  | nil => simp [Memory.write]
  | cons c m ih =>
    obtain ⟨a, b⟩ := c
    by_cases h1 : k < a
    · simp [Memory.write, h1]
    · by_cases h2 : k = a
      · subst h2; simp [Memory.write]
      · simp [Memory.write, h1, h2, ih]

/-- What MemWrite does to one byte: the stored byte inside the range, the old one outside. -/
theorem Memory.read_writeBytes (bs : List Byte) (m : Memory) (k j : Nat) :
    (Memory.writeBytes m k bs).read j =
      if k ≤ j ∧ j < k + bs.length then bs[j - k]? else Memory.read m j := by
  induction bs generalizing m k with
  | nil => simp [Memory.writeBytes]
  | cons b bs ih =>
    simp only [Memory.writeBytes, ih, List.length_cons]
    by_cases h : j = k
    · subst h; simp [Memory.read_write_self]
    · by_cases h' : k + 1 ≤ j ∧ j < k + 1 + bs.length
      · have : j - k = (j - (k + 1)) + 1 := by omega
        rw [if_pos h', if_pos (by omega), this, List.getElem?_cons_succ]
      · rw [if_neg h', if_neg (by omega), Memory.read_write_of_ne _ _ _ _ h]

/-- The addresses a write leaves are the old ones and its own. -/
theorem Memory.mem_write {m : Memory} {k : Nat} {v : Byte} {c : Host.Cell}
    (h : c ∈ Memory.write m k v) : c.1 = k ∨ c ∈ m := by
  induction m with
  | nil => simp [Memory.write] at h; simp [h]
  | cons d m ih =>
    obtain ⟨a, b⟩ := d
    simp only [Memory.write] at h
    split at h
    · simpa [or_assoc] using (List.mem_cons.mp h).imp (fun e => by simp [e]) id
    · split at h
      · rcases List.mem_cons.mp h with e | e
        · simp [e]
        · exact .inr (List.mem_cons_of_mem _ e)
      · rcases List.mem_cons.mp h with e | e
        · simp [e]
        · exact (ih e).imp id (List.mem_cons_of_mem _)

theorem Memory.pairwise_write {m : Memory} (k : Nat) (v : Byte)
    (h : m.Pairwise fun x y => x.1 < y.1) :
    (Memory.write m k v).Pairwise fun x y => x.1 < y.1 := by
  induction m with
  | nil => simp [Memory.write]
  | cons c m ih =>
    obtain ⟨a, b⟩ := c
    obtain ⟨h1, h2⟩ := List.pairwise_cons.mp h
    simp only [Memory.write]
    split
    · next hk =>
      refine List.pairwise_cons.mpr ⟨fun x hx => ?_, h⟩
      rcases List.mem_cons.mp hx with e | e
      · simpa [e] using hk
      · exact lt_trans hk (h1 x e)
    · split
      · next hk => subst hk; exact List.pairwise_cons.mpr ⟨h1, h2⟩
      · next hk hk' =>
        refine List.pairwise_cons.mpr ⟨fun x hx => ?_, ih h2⟩
        rcases Memory.mem_write hx with e | e
        · simp only [e]; omega
        · exact h1 x e

theorem Memory.wf_nil : Memory.wf [] := by simp [Memory.wf]

theorem Memory.wf_write {m : Memory} {k : Nat} (v : Byte) (h : m.wf) (hk : k < 64) :
    (Memory.write m k v).wf :=
  ⟨Memory.pairwise_write k v h.1, fun c hc => (Memory.mem_write hc).elim (· ▸ hk) (h.2 c)⟩

theorem Memory.wf_writeBytes {bs : List Byte} {m : Memory} {k : Nat} (h : m.wf)
    (hk : k + bs.length ≤ 64) : (Memory.writeBytes m k bs).wf := by
  induction bs generalizing m k with
  | nil => exact h
  | cons b bs ih =>
    simp only [List.length_cons] at hk
    exact ih (Memory.wf_write b h (by omega)) (by omega)

/-- An address below every listed one reads as no byte. -/
theorem Memory.read_eq_none_of_lt {m : Memory} {k : Nat} (h : ∀ c ∈ m, k < c.1) :
    Memory.read m k = none := by
  induction m with
  | nil => rfl
  | cons c m ih =>
    have hc := h c (by simp)
    simp only [Memory.read, if_neg (show ¬ c.1 = k by omega)]
    exact ih fun d hd => h d (List.mem_cons_of_mem _ hd)

/-- A canonical memory is determined by what its addresses read as. -/
theorem Memory.eq_of_read {m n : Memory} (hm : m.Pairwise fun x y => x.1 < y.1)
    (hn : n.Pairwise fun x y => x.1 < y.1) (h : ∀ k, Memory.read m k = Memory.read n k) :
    m = n := by
  induction m generalizing n with
  | nil =>
    cases n with
    | nil => rfl
    | cons d n => have := h d.1; simp [Memory.read] at this
  | cons c m ih =>
    obtain ⟨hc, hm'⟩ := List.pairwise_cons.mp hm
    cases n with
    | nil => have := h c.1; simp [Memory.read] at this
    | cons d n =>
      obtain ⟨hd, hn'⟩ := List.pairwise_cons.mp hn
      have hcd : c.1 = d.1 := by
        rcases Nat.lt_trichotomy c.1 d.1 with hlt | he | hlt
        · have := h c.1
          rw [Memory.read_eq_none_of_lt (m := d :: n) (k := c.1)
            (by simpa using ⟨hlt, fun a b hab => lt_trans hlt (hd (a, b) hab)⟩)] at this
          simp [Memory.read] at this
        · exact he
        · have := h d.1
          rw [Memory.read_eq_none_of_lt (m := c :: m) (k := d.1)
            (by simpa using ⟨hlt, fun a b hab => lt_trans hlt (hc (a, b) hab)⟩)] at this
          simp [Memory.read] at this
      have hb : c.2 = d.2 := by simpa [Memory.read, hcd] using h c.1
      have hcd' : c = d := Prod.ext hcd hb
      subst hcd'
      refine congrArg _ (ih hm' hn' fun k => ?_)
      by_cases hk : c.1 = k
      · subst hk
        rw [Memory.read_eq_none_of_lt hc, Memory.read_eq_none_of_lt hd]
      · simpa [Memory.read, hk] using h k

theorem Memory.reset_wf : State.reset.xb.wf := Memory.wf_nil

end Sys2Proof.Machine
end

