-- ==== Sys2Proof/Laws/Encoding.lean ====
section
/-! SUPPORT. Big-endian byte strings: the value of an image, the image of a value. -/

namespace Sys2Proof.Machine

/-- The n-byte big-endian image of a number: enc16 for n = 16. -/
def beBytes (n x : Nat) : List Byte :=
  (List.range n).map fun i => BitVec.ofNat 8 (x >>> (8 * (n - 1 - i)))

@[simp] theorem length_beBytes (n x : Nat) : (beBytes n x).length = n := by simp [beBytes]

theorem enc16_eq (x : Fe) : enc16 x = beBytes 16 x.val := rfl

@[simp] theorem length_enc16 (x : Fe) : (enc16 x).length = 16 := by simp [enc16]

@[simp] theorem length_enc64 (X : Mat) : (enc64 X).length = 64 := by simp [enc64]

theorem beBytes_succ (n x : Nat) :
    beBytes (n + 1) x = beBytes n (x / 256) ++ [BitVec.ofNat 8 x] := by
  simp only [beBytes, List.range_succ, List.map_append, List.map_cons, List.map_nil]
  congr 1
  · refine List.map_congr_left fun i hi => ?_
    have hi := List.mem_range.mp hi
    rw [show 8 * (n + 1 - 1 - i) = 8 + 8 * (n - 1 - i) by omega, Nat.shiftRight_add,
      Nat.shiftRight_eq_div_pow x 8]
  · simp

theorem beValue_append (bs : List Byte) (b : Byte) :
    beValue (bs ++ [b]) = beValue bs * 256 + b.toNat := by simp [beValue]

theorem beValue_beBytes (n x : Nat) : beValue (beBytes n x) = x % 256 ^ n := by
  induction n generalizing x with
  | zero => simp [beBytes, beValue, Nat.mod_one]
  | succ n ih =>
    rw [beBytes_succ, beValue_append, ih, BitVec.toNat_ofNat, pow_succ' 256 n, Nat.mod_mul,
      Nat.mul_comm, Nat.add_comm]

theorem beBytes_beValue (bs : List Byte) : beBytes bs.length (beValue bs) = bs := by
  induction bs using List.reverseRecOn with
  | nil => rfl
  | append_singleton bs b ih =>
    have hb := b.isLt
    rw [List.length_append, List.length_singleton, beBytes_succ, beValue_append,
      show (beValue bs * 256 + b.toNat) / 256 = beValue bs by omega, ih]
    congr 2
    apply BitVec.eq_of_toNat_eq
    rw [BitVec.toNat_ofNat]; omega

theorem beValue_lt (bs : List Byte) : beValue bs < 256 ^ bs.length := by
  induction bs using List.reverseRecOn with
  | nil => simp [beValue]
  | append_singleton bs b ih =>
    have hb := b.isLt
    rw [beValue_append, List.length_append, List.length_singleton, pow_succ]
    omega

/-- The leading byte is the top digit of the value. -/
theorem beValue_cons (b : Byte) (bs : List Byte) :
    beValue (b :: bs) = b.toNat * 256 ^ bs.length + beValue bs := by
  induction bs using List.reverseRecOn with
  | nil => simp [beValue]
  | append_singleton bs c ih =>
    rw [← List.cons_append, beValue_append, ih, beValue_append, List.length_append,
      List.length_singleton, pow_succ]
    ring

/-- A 16-byte string with its top bit clear has a value of at most P. -/
theorem beValue_le_P {bs : List Byte} (hl : bs.length = 16) (h : bs.headD 0 < 0x80) :
    beValue bs ≤ P := by
  match bs, hl with
  | b :: bs, hl =>
    have hlen : bs.length = 15 := by simpa using hl
    have hb : b.toNat < 128 := by simpa [BitVec.lt_def] using h
    have hlt := beValue_lt bs
    rw [hlen] at hlt
    have hP : P = 127 * 256 ^ 15 + (256 ^ 15 - 1) := by decide
    have hmul := Nat.mul_le_mul_right (256 ^ 15) (show b.toNat ≤ 127 by omega)
    rw [beValue_cons, hlen, hP]
    exact Nat.add_le_add hmul (Nat.le_sub_one_of_lt hlt)

/-- Byte i of enc16 (40_field.md R130). -/
theorem getElem?_enc16 (x : Fe) {i : Nat} (h : i < 16) :
    (enc16 x)[i]? = some (byteAt x i) := by
  rw [byteAt, show (256 : Nat) = 2 ^ 8 by rfl, ← pow_mul, ← Nat.shiftRight_eq_div_pow]
  simp [enc16, h]

theorem enc16_inj {x y : Fe} (h : enc16 x = enc16 y) : x = y := by
  have hv := congrArg beValue h
  have hp : P < 256 ^ 16 := by decide
  rw [enc16_eq, enc16_eq, beValue_beBytes, beValue_beBytes,
    Nat.mod_eq_of_lt (x.isLt.trans hp), Nat.mod_eq_of_lt (y.isLt.trans hp)] at hv
  exact Fin.ext hv

theorem enc64_inj {X Y : Mat} (h : enc64 X = enc64 Y) : X = Y := by
  simp only [enc64] at h
  obtain ⟨h, h4⟩ := List.append_inj' h (by simp)
  obtain ⟨h, h3⟩ := List.append_inj' h (by simp)
  obtain ⟨h1, h2⟩ := List.append_inj' h (by simp)
  cases X; cases Y
  rw [Mat.mk.injEq]
  exact ⟨enc16_inj h1, enc16_inj h2, enc16_inj h3, enc16_inj h4⟩

/-- dec16 succeeds on a well-formed block, with its value. -/
theorem dec16_of_good {bs : List Byte} (hl : bs.length = 16) (h : GoodBlock bs) :
    ∃ v : Fe, dec16 bs = some v ∧ v.val = beValue bs := by
  have hlt : beValue bs < P := lt_of_le_of_ne (beValue_le_P hl h.1) h.2
  have htop : ¬ bs.headD 0 ≥ 0x80 := by simpa using h.1
  exact ⟨⟨_, hlt⟩, by rw [dec16, if_neg htop, dif_pos hlt], rfl⟩

/-- dec16 fails on every other block. -/
theorem dec16_of_bad {bs : List Byte} (h : ¬ GoodBlock bs) : dec16 bs = none := by
  unfold dec16
  split
  · rfl
  · next hh =>
    have hP : beValue bs = P := by
      by_contra hc; exact h ⟨by simpa using hh, hc⟩
    simp [hP]

/-- XB after a 64-byte image was written holds the matrix. -/
theorem holdsMat_writeBytes (m : Memory) (X : Mat) :
    HoldsMat (Memory.writeBytes m 0 (enc64 X)) X := by
  refine ⟨?_, ?_, ?_, ?_⟩ <;> intro i hi <;>
    rw [Memory.read_writeBytes, if_pos (by simp; omega)] <;>
    simp only [enc64, Nat.sub_zero, List.getElem?_append, List.length_append, length_enc16]
  · rw [if_pos (by omega), if_pos (by omega), if_pos (by omega), Nat.zero_add,
      getElem?_enc16 _ hi]
  · rw [if_pos (by omega), if_pos (by omega), if_neg (by omega), Nat.add_sub_cancel_left,
      getElem?_enc16 _ hi]
  · rw [if_pos (by omega), if_neg (by omega), show 32 + i - (16 + 16) = i by omega,
      getElem?_enc16 _ hi]
  · rw [if_neg (by omega), show 48 + i - (16 + 16 + 16) = i by omega, getElem?_enc16 _ hi]

end Sys2Proof.Machine
end

