-- ==== Sys2Proof/Laws/MatrixArith.lean ====
section
/-! SUPPORT. Matrices read entry by entry in ZMod P, so that a law of matrices is four ring
identities, and the determinant test in plain arithmetic. -/

namespace Sys2Proof.Machine

theorem Mat.eq_of_feZ {X Y : Mat} (ha : feZ X.a = feZ Y.a) (hb : feZ X.b = feZ Y.b)
    (hc : feZ X.c = feZ Y.c) (hd : feZ X.d = feZ Y.d) : X = Y := by
  obtain ⟨a, b, c, d⟩ := X
  obtain ⟨a', b', c', d'⟩ := Y
  simp only [feZ_inj] at ha hb hc hd
  simp [ha, hb, hc, hd]

@[simp] theorem feZ_mulM_a (X Y : Mat) :
    feZ (mulM X Y).a = feZ X.a * feZ Y.a + feZ X.b * feZ Y.c := by simp [mulM]
@[simp] theorem feZ_mulM_b (X Y : Mat) :
    feZ (mulM X Y).b = feZ X.a * feZ Y.b + feZ X.b * feZ Y.d := by simp [mulM]
@[simp] theorem feZ_mulM_c (X Y : Mat) :
    feZ (mulM X Y).c = feZ X.c * feZ Y.a + feZ X.d * feZ Y.c := by simp [mulM]
@[simp] theorem feZ_mulM_d (X Y : Mat) :
    feZ (mulM X Y).d = feZ X.c * feZ Y.b + feZ X.d * feZ Y.d := by simp [mulM]

@[simp] theorem feZ_det (X : Mat) : feZ (det X) = feZ X.a * feZ X.d - feZ X.b * feZ X.c := by
  simp [det]

@[simp] theorem feZ_I2_a : feZ I2.a = 1 := feZ_one
@[simp] theorem feZ_I2_b : feZ I2.b = 0 := feZ_zero
@[simp] theorem feZ_I2_c : feZ I2.c = 0 := feZ_zero
@[simp] theorem feZ_I2_d : feZ I2.d = 1 := feZ_one

/-- The determinant is 1 exactly when a·d ≡ b·c + 1 modulo P. -/
theorem det_eq_one_iff (X : Mat) :
    det X = .ofNat 1 ↔ X.a.val * X.d.val % P = (X.b.val * X.c.val + 1) % P := by
  rw [← feZ_inj, feZ_det, feZ_one, sub_eq_iff_eq_add', ← Nat.ModEq,
    ← ZMod.natCast_eq_natCast_iff]
  simp [feZ]

theorem detIsOne_iff (X : Mat) : detIsOne X = true ↔ det X = .ofNat 1 := by simp [detIsOne]

theorem eqTestF_iff (x y : Fe) : eqTestF x y = true ↔ x = y := by simp [eqTestF]

theorem eqTestM_iff (X Y : Mat) : eqTestM X Y = true ↔ X = Y := by
  cases X; cases Y; simp [eqTestM, and_assoc]

end Sys2Proof.Machine
end

