-- ==== Sys2Proof/Laws/Ops.lean ====
section
/-! SUPPORT. One lemma per shared operation that says what it can do, and one inversion lemma for
the step. -/

namespace Sys2Proof.Machine

variable (s : State)

/-! Registers. -/

@[simp] theorem readF_writeF_self (r : FReg) (v : Fe) : (s.writeF r v).readF r = v := by
  simp [State.readF]

@[simp] theorem readM_writeM_self (r : MReg) (v : Mat) : (s.writeM r v).readM r = v := by
  simp [State.readM]

@[simp] theorem written_writeF_self (r : FReg) (v : Fe) :
    (s.writeF r v).written (.f r) = true := by simp [State.written]

@[simp] theorem written_writeM_self (r : MReg) (v : Mat) :
    (s.writeM r v).written (.m r) = true := by simp [State.written]

theorem getF_writeF_of_ne (r q : FReg) (v : Fe) (h : q ≠ r) : (s.writeF r v).f[q] = s.f[q] := by
  simp [Fin.val_ne_of_ne (Ne.symm h)]

theorem getM_writeM_of_ne (r q : MReg) (v : Mat) (h : q ≠ r) : (s.writeM r v).m[q] = s.m[q] := by
  simp [Fin.val_ne_of_ne (Ne.symm h)]

@[simp] theorem written_resetCore (r : RegName) : s.resetCore.written r = false := by
  cases r <;> simp [State.written, freeF, freeM]

/-! The check of a command's sources. -/

/-- Every source was written: the command runs. -/
theorem checkReads_written {w : Word} {l : List RegName} (t : State)
    (h : ∀ r ∈ l, s.written r = true) : s.checkReads w l t = t := by
  have : (l.find? fun r => !s.written r) = none := by
    rw [List.find?_eq_none]; intro r hr; simp [h r hr]
  simp [State.checkReads, this]

@[simp] theorem checkReads_one {w : Word} {r : RegName} (t : State) (h : s.written r = true) :
    s.checkReads w [r] t = t := checkReads_written s t (by simp [h])

@[simp] theorem checkReads_two {w : Word} {r q : RegName} (t : State) (hr : s.written r = true)
    (hq : s.written q = true) : s.checkReads w [r, q] t = t :=
  checkReads_written s t (by simp [hr, hq])

/-- The first unwritten source is recorded, and nothing else happens. -/
theorem checkReads_unwritten {w : Word} {pre post : List RegName} {r : RegName} (t : State)
    (h : ∀ q ∈ pre, s.written q = true) (hr : s.written r = false) :
    s.checkReads w (pre ++ r :: post) t = s.recordUnwritten r w := by
  have hp : (pre.find? fun r => !s.written r) = none := by
    rw [List.find?_eq_none]; intro q hq; simp [h q hq]
  simp [State.checkReads, List.find?_append, hp, hr]

/-- All that the check can do: the command's effect, every source written, or the record of an
unwritten one. -/
theorem checkReads_cases (w : Word) (l : List RegName) (t : State) :
    ((∀ r ∈ l, s.written r = true) ∧ s.checkReads w l t = t) ∨
    ∃ r ∈ l, s.written r = false ∧ s.checkReads w l t = s.recordUnwritten r w := by
  unfold State.checkReads
  cases h : l.find? fun r => !s.written r with
  | none => exact .inl ⟨by simpa [List.find?_eq_none] using h, rfl⟩
  | some r =>
    exact .inr ⟨r, List.mem_of_find?_eq_some h, by simpa using List.find?_some h, rfl⟩

/-! XB. -/

@[simp] theorem length_memRead (k n : Nat) : (s.memRead k n).length = n := by
  simp [State.memRead]

theorem getElem?_memRead {k n i : Nat} (h : i < n) :
    (s.memRead k n)[i]? = some ((s.xb.read (k + i)).getD (Config.freeByte (s.draws + i))) := by
  simp [State.memRead, h]

/-- A range of written bytes reads as those bytes. -/
theorem memRead_eq {k : Nat} {bs : List Byte}
    (h : ∀ i (hi : i < bs.length), s.xb.read (k + i) = some bs[i]) :
    s.memRead k bs.length = bs := by
  refine List.ext_getElem (by simp) fun i _ hi => ?_
  simp [State.memRead, h i hi]

/-- Two states whose XB agrees on a range, with the same draws, read the same there. -/
theorem memRead_congr {s t : State} {k n : Nat} (hd : s.draws = t.draws)
    (h : ∀ i, i < n → s.xb.read (k + i) = t.xb.read (k + i)) : s.memRead k n = t.memRead k n := by
  refine List.map_congr_left fun i hi => ?_
  rw [h i (List.mem_range.mp hi), hd]

theorem read_memWrite (k j : Nat) (bs : List Byte) :
    (s.memWrite k bs).xb.read j =
      if k ≤ j ∧ j < k + bs.length then bs[j - k]? else s.xb.read j :=
  Memory.read_writeBytes bs s.xb k j

/-! Every command answers a next state. -/

theorem exec_next (i : Instr) : ∃ t, exec i s = .next t := by
  cases i <;> exact ⟨_, rfl⟩

theorem faulted_eq_false : s.faulted = false ↔ s.faults = [] := by
  simp [State.faulted]

theorem faulted_eq_true : s.faulted = true ↔ s.faults ≠ [] := by
  simp [State.faulted]

/-- The core's turn answers a next state. -/
theorem coreStep_next : ∃ t, coreStep s = .next t := by
  unfold coreStep
  split
  · split
    · exact ⟨_, rfl⟩
    · unfold execute
      split
      · exact ⟨_, rfl⟩
      · exact exec_next s _
  · exact ⟨_, rfl⟩

/-- An unfaulted core's turn executes its pending word. -/
theorem coreStep_some {w : Word} (h : s.faults = []) (hw : s.pend = some w) :
    coreStep s = execute w s := by simp [coreStep, hw, (faulted_eq_false s).mpr h]

/-- An idle core's turn changes nothing. -/
theorem coreStep_none (h : s.pend = none) : coreStep s = .next s := by simp [coreStep, h]

/-- A faulted state takes no core step: its turn passes. -/
theorem coreStep_faulted (h : s.faults ≠ []) : coreStep s = .next s := by
  unfold coreStep
  split
  · rw [if_pos ((faulted_eq_true s).mpr h)]
  · rfl

/-! The step, by its input. -/

theorem step_of_nil (h : s.inputs = []) : step s = coreStep s := by simp [step, h]

theorem step_of_cons {x : Input} {rest : List Input} (h : s.inputs = x :: rest) :
    step s = takeInput x (s.withInputs rest) := by simp [step, h]

/-- A step at the core's turn is the core's step of u, which differs from s in its inputs alone. -/
theorem step_of_coreTurn {u : State} (h : CoreTurn s u) :
    step s = coreStep u ∧ u = s.withInputs u.inputs := by
  rcases h with ⟨h, rfl⟩ | ⟨r, h, rfl⟩
  · exact ⟨step_of_nil _ h, rfl⟩
  · exact ⟨step_of_cons _ h, rfl⟩

/-- What a step that answers a next state can be: an idle or faulted turn, an illegal word, a command, a
host read, a host write or a hard reset. `u` is the state with the input gone. -/
theorem step_cases {t : State} (h : step s = .next t) :
    ∃ u, (u = s ∧ s.inputs = [] ∨ ∃ x, s.inputs = x :: u.inputs ∧ u = s.withInputs u.inputs) ∧
      (((u.pend = none ∨ u.faults ≠ []) ∧ t = u) ∨
       (u.faults = [] ∧ ∃ w e, u.pend = some w ∧ decode w = .error e ∧
          t = u.raise .illegalCommand w) ∨
       (u.faults = [] ∧ ∃ w i, u.pend = some w ∧ decode w = .ok i ∧ exec i u = .next t) ∨
       (∃ bits off tgt, s.inputs = .access (.read bits off) :: u.inputs ∧
          targetOf bits off = some tgt ∧ t = hostRead tgt u) ∨
       (∃ bits off v tgt, s.inputs = .access (.write bits off v) :: u.inputs ∧
          targetOf bits off = some tgt ∧ t = hostWrite tgt v u) ∨
       (s.inputs = .hardReset :: u.inputs ∧ t = u.resetCore)) := by
  have core : ∀ u : State, coreStep u = .next t →
      ((u.pend = none ∨ u.faults ≠ []) ∧ t = u) ∨
      (u.faults = [] ∧ ∃ w e, u.pend = some w ∧ decode w = .error e ∧
        t = u.raise .illegalCommand w) ∨
      (u.faults = [] ∧ ∃ w i, u.pend = some w ∧ decode w = .ok i ∧ exec i u = .next t) := by
    intro u hu
    by_cases hf : u.faults = []
    · cases hp : u.pend with
      | none =>
        rw [coreStep_none u hp] at hu
        exact .inl ⟨.inl rfl, (Host.Outcome.next.inj hu).symm⟩
      | some w =>
        rw [coreStep_some u hf hp] at hu
        unfold execute at hu
        split at hu
        · next e he => exact .inr (.inl ⟨hf, w, e, rfl, he, (Host.Outcome.next.inj hu).symm⟩)
        · next i hi => exact .inr (.inr ⟨hf, w, i, rfl, hi, hu⟩)
    · rw [coreStep_faulted u hf] at hu
      exact .inl ⟨.inr hf, (Host.Outcome.next.inj hu).symm⟩
  cases hin : s.inputs with
  | nil =>
    rw [step_of_nil s hin] at h
    refine ⟨s, .inl ⟨rfl, rfl⟩, ?_⟩
    rcases core s h with h | h | h
    · exact .inl h
    · exact .inr (.inl h)
    · exact .inr (.inr (.inl h))
  | cons x rest =>
    rw [step_of_cons s hin] at h
    refine ⟨s.withInputs rest, .inr ⟨x, rfl, rfl⟩, ?_⟩
    cases x with
    | coreTurn =>
      rcases core _ h with h | h | h
      · exact .inl h
      · exact .inr (.inl h)
      · exact .inr (.inr (.inl h))
    | hardReset =>
      exact .inr (.inr (.inr (.inr (.inr ⟨rfl, (Host.Outcome.next.inj h).symm⟩))))
    | access a =>
      cases a with
      | read bits off =>
        simp only [takeInput, hostAccess] at h
        split at h
        · next tgt ht =>
          exact .inr (.inr (.inr (.inl ⟨bits, off, tgt, rfl, ht,
            (Host.Outcome.next.inj h).symm⟩)))
        · cases h
      | write bits off v =>
        simp only [takeInput, hostAccess] at h
        split at h
        · next tgt ht =>
          exact .inr (.inr (.inr (.inr (.inl ⟨bits, off, v, tgt, rfl, ht,
            (Host.Outcome.next.inj h).symm⟩))))
        · cases h

/-! Targets of host accesses. -/

@[simp] theorem targetOf_cmd : targetOf 32 0x00 = some .cmd := rfl
@[simp] theorem targetOf_status : targetOf 32 0x04 = some .status := rfl
@[simp] theorem targetOf_ctrl : targetOf 32 0x08 = some .ctrl := rfl
@[simp] theorem targetOf_errcmd : targetOf 32 0x0C = some .errcmd := rfl

theorem targetOf_xb {k : Nat} (h : k < 64) : targetOf 8 (0x40 + k) = some (.xb ⟨k, h⟩) := by
  simp [targetOf, h]

/-- The target of a defined access, and only of one. -/
theorem targetOf_eq_some {bits off : Nat} {t : Target} (h : targetOf bits off = some t) :
    (bits = 32 ∧ off = 0x00 ∧ t = .cmd) ∨ (bits = 32 ∧ off = 0x04 ∧ t = .status) ∨
    (bits = 32 ∧ off = 0x08 ∧ t = .ctrl) ∨ (bits = 32 ∧ off = 0x0C ∧ t = .errcmd) ∨
    (bits = 8 ∧ ∃ k : Fin 64, off = 0x40 + k.val ∧ t = .xb k) := by
  unfold targetOf at h
  split_ifs at h with h1 h2 h3 h4 h5 h6 h7 <;> simp_all
  obtain ⟨h7, h8⟩ := h7
  exact ⟨⟨off - 64, h7⟩, by simp; omega, h.symm⟩

end Sys2Proof.Machine
end

