-- ==== Sys2Proof/Laws/Exec.lean ====
section
/-! SUPPORT. One equation per branch of a meaning whose sources are written, in the order of the
opcode table; the meanings that read no register and do not branch have theirs by rfl. -/

namespace Sys2Proof.Machine

variable (s : State)

theorem exec_fadd {fd fs1 fs2 : FReg} (h1 : s.written (.f fs1) = true)
    (h2 : s.written (.f fs2) = true) :
    exec (.fadd fd fs1 fs2) s = .next (s.writeF fd (addF (s.readF fs1) (s.readF fs2))).complete := by
  simp [exec, execFadd, h1, h2]

theorem exec_fsub {fd fs1 fs2 : FReg} (h1 : s.written (.f fs1) = true)
    (h2 : s.written (.f fs2) = true) :
    exec (.fsub fd fs1 fs2) s = .next (s.writeF fd (subF (s.readF fs1) (s.readF fs2))).complete := by
  simp [exec, execFsub, h1, h2]

theorem exec_fmul {fd fs1 fs2 : FReg} (h1 : s.written (.f fs1) = true)
    (h2 : s.written (.f fs2) = true) :
    exec (.fmul fd fs1 fs2) s = .next (s.writeF fd (mulF (s.readF fs1) (s.readF fs2))).complete := by
  simp [exec, execFmul, h1, h2]

theorem exec_finv_nonzero {fd fs : FReg} (hw : s.written (.f fs) = true)
    (h : (s.readF fs).val ≠ 0) :
    exec (.finv fd fs) s = .next (s.writeF fd (invF (s.readF fs))).complete := by
  simp [exec, execFinv, hw, h]

theorem exec_finv_zero {fd fs : FReg} (hw : s.written (.f fs) = true) (h : (s.readF fs).val = 0) :
    exec (.finv fd fs) s = .next (s.raise .invalidArgument (encode (.finv fd fs))) := by
  simp [exec, execFinv, hw, h]

theorem exec_feq {fs1 fs2 : FReg} (h1 : s.written (.f fs1) = true)
    (h2 : s.written (.f fs2) = true) :
    exec (.feq fs1 fs2) s = .next (s.setEq (eqTestF (s.readF fs1) (s.readF fs2))).complete := by
  simp [exec, execFeq, h1, h2]

theorem exec_fdec_some {fd : FReg} {k : Slot} {v : Fe} (h : dec16 (s.slotBytes k) = some v) :
    exec (.fdec fd k) s = .next (((s.drew 16).writeF fd v).complete) := by
  simp [exec, execFdec, h]

theorem exec_fdec_none {fd : FReg} {k : Slot} (h : dec16 (s.slotBytes k) = none) :
    exec (.fdec fd k) s =
      .next ((s.drew 16).raise .malformedEncoding (encode (.fdec fd k))) := by
  simp [exec, execFdec, h]

theorem exec_fenc {fs : FReg} {k : Slot} (h1 : s.written (.f fs) = true) :
    exec (.fenc fs k) s = .next (s.memWrite (slotOffset k) (enc16 (s.readF fs))).complete := by
  simp [exec, execFenc, h1]

theorem exec_mmul {md ms1 ms2 : MReg} (h1 : s.written (.m ms1) = true)
    (h2 : s.written (.m ms2) = true) :
    exec (.mmul md ms1 ms2) s = .next (s.writeM md (mulM (s.readM ms1) (s.readM ms2))).complete := by
  simp [exec, execMmul, h1, h2]

theorem exec_minv_one {md ms : MReg} (hw : s.written (.m ms) = true)
    (h : detIsOne (s.readM ms) = true) :
    exec (.minv md ms) s = .next (s.writeM md (inv2 (s.readM ms))).complete := by
  simp [exec, execMinv, hw, h]

theorem exec_minv_other {md ms : MReg} (hw : s.written (.m ms) = true)
    (h : detIsOne (s.readM ms) = false) :
    exec (.minv md ms) s = .next (s.raise .invalidArgument (encode (.minv md ms))) := by
  simp [exec, execMinv, hw, h]

theorem exec_meq {ms1 ms2 : MReg} (h1 : s.written (.m ms1) = true)
    (h2 : s.written (.m ms2) = true) :
    exec (.meq ms1 ms2) s = .next (s.setEq (eqTestM (s.readM ms1) (s.readM ms2))).complete := by
  simp [exec, execMeq, h1, h2]

theorem exec_mchk {ms : MReg} (h1 : s.written (.m ms) = true) :
    exec (.mchk ms) s = .next (s.setEq (detIsOne (s.readM ms))).complete := by
  simp [exec, execMchk, h1]

theorem exec_mdec_some {md : MReg} {X : Mat} (h : dec64 s.bufferBytes = some X) :
    exec (.mdec md) s = .next (((s.drew 64).writeM md X).complete) := by
  simp [exec, execMdec, h]

theorem exec_mdec_none {md : MReg} (h : dec64 s.bufferBytes = none) :
    exec (.mdec md) s = .next ((s.drew 64).raise .malformedEncoding (encode (.mdec md))) := by
  simp [exec, execMdec, h]

theorem exec_menc {ms : MReg} (h1 : s.written (.m ms) = true) :
    exec (.menc ms) s = .next (s.memWrite 0 (enc64 (s.readM ms))).complete := by
  simp [exec, execMenc, h1]

theorem exec_dabsb_le {n : BitVec 7} (h : n.toNat ≤ 64) :
    exec (.dabsb n) s =
      .next (((s.drew n.toNat).setDigest (absorb s.digest (s.prefixBytes n))).complete) := by
  simp [exec, execDabsb, countOk, h]

theorem exec_dabsb_gt {n : BitVec 7} (h : 64 < n.toNat) :
    exec (.dabsb n) s = .next (s.raise .illegalCommand (encode (.dabsb n))) := by
  simp [exec, execDabsb, countOk, Nat.not_le.mpr h]

/-- Everything a command can do: complete, raise an error, both with every source written, or
record an unwritten source and stop. -/
theorem exec_cases {i : Instr} {s t : State} (h : exec i s = .next t) :
    ((∀ r ∈ readsRegs i, s.written r = true) ∧ t.errcode = s.errcode ∧ t.errcmd = s.errcmd ∧
      t.pend = none ∧ t.ovr = s.ovr ∧ t.faults = s.faults ∧ t.inputs = s.inputs ∧
      t.readData = s.readData) ∨
    ((∀ r ∈ readsRegs i, s.written r = true) ∧ ∃ n k, t = (s.drew n).raise k (encode i)) ∨
    ∃ r ∈ readsRegs i, s.written r = false ∧ t = s.recordUnwritten r (encode i) := by
  have checked : ∀ {u}, exec i s = .next (s.checkReads (encode i) (readsRegs i) u) →
      (t = u ∧ ∀ r ∈ readsRegs i, s.written r = true) ∨
      ∃ r ∈ readsRegs i, s.written r = false ∧ t = s.recordUnwritten r (encode i) := by
    intro u he
    rw [he] at h
    cases h
    exact (checkReads_cases s (encode i) (readsRegs i) u).imp_left And.symm
  cases i with
  | fadd | fsub | fmul | feq | fenc | mmul | meq | mchk | menc =>
    rcases checked rfl with ⟨rfl, hw⟩ | hr
    · exact .inl ⟨hw, by simp⟩
    · exact .inr (.inr hr)
  | finv =>
    rcases checked rfl with ⟨rfl, hw⟩ | hr
    · split
      · exact .inr (.inl ⟨hw, 0, _, rfl⟩)
      · exact .inl ⟨hw, by simp⟩
    · exact .inr (.inr hr)
  | minv =>
    rcases checked rfl with ⟨rfl, hw⟩ | hr
    · split
      · exact .inl ⟨hw, by simp⟩
      · exact .inr (.inl ⟨hw, 0, _, rfl⟩)
    · exact .inr (.inr hr)
  | fdec fd k =>
    cases hd : dec16 (s.slotBytes k) with
    | none =>
      rw [exec_fdec_none s hd] at h; cases h
      exact .inr (.inl ⟨by simp [readsRegs], _, _, rfl⟩)
    | some v => rw [exec_fdec_some s hd] at h; cases h; exact .inl ⟨by simp [readsRegs], by simp⟩
  | mdec md =>
    cases hd : dec64 s.bufferBytes with
    | none =>
      rw [exec_mdec_none s hd] at h; cases h
      exact .inr (.inl ⟨by simp [readsRegs], _, _, rfl⟩)
    | some v => rw [exec_mdec_some s hd] at h; cases h; exact .inl ⟨by simp [readsRegs], by simp⟩
  | dabsb n =>
    by_cases hd : n.toNat ≤ 64
    · rw [exec_dabsb_le s hd] at h; cases h; exact .inl ⟨by simp [readsRegs], by simp⟩
    · rw [exec_dabsb_gt s (by omega)] at h; cases h
      exact .inr (.inl ⟨by simp [readsRegs], 0, _, rfl⟩)
  | mid | drst | dabs | dsum | dget => cases h; exact .inl ⟨by simp [readsRegs], by simp⟩

end Sys2Proof.Machine
end

