-- ==== Sys2Proof/Laws/PerInstr.lean ====
section
/-! SUPPORT. The per-instruction family EncodesItsRow: a command's word carries its row's match
value under the row's mask, and the row reads the command's operands back (30_encoding.md R95). -/

namespace Sys2Proof.Laws.EncodesItsRow

/-- The row of the command's opcode is in the table, its mask and match hold of the command's word,
and it rebuilds the command. -/
def Statement (i : Instr) : Prop :=
  ∃ r, rowOf (opField (encode i)) = some r ∧ encode i &&& r.mask = r.pattern ∧
    r.build (encode i) = i

theorem fadd (a b c : FReg) : Statement (.fadd a b c) := by
  refine ⟨_, by rw [encode, opField_packWord]; rfl, ?_, by simp [encode]⟩
  exact (packWord_and _ _ _ _ _ 0xFF#8 0x0#4 0x0#4 0x0#4 0xF#4 0xFF#8).trans (by simp; rfl)

theorem fsub (a b c : FReg) : Statement (.fsub a b c) := by
  refine ⟨_, by rw [encode, opField_packWord]; rfl, ?_, by simp [encode]⟩
  exact (packWord_and _ _ _ _ _ 0xFF#8 0x0#4 0x0#4 0x0#4 0xF#4 0xFF#8).trans (by simp; rfl)

theorem fmul (a b c : FReg) : Statement (.fmul a b c) := by
  refine ⟨_, by rw [encode, opField_packWord]; rfl, ?_, by simp [encode]⟩
  exact (packWord_and _ _ _ _ _ 0xFF#8 0x0#4 0x0#4 0x0#4 0xF#4 0xFF#8).trans (by simp; rfl)

theorem finv (a b : FReg) : Statement (.finv a b) := by
  refine ⟨_, by rw [encode, opField_packWord]; rfl, ?_, by simp [encode]⟩
  exact (packWord_and _ _ _ _ _ 0xFF#8 0x0#4 0x0#4 0xF#4 0xF#4 0xFF#8).trans (by simp; rfl)

theorem feq (a b : FReg) : Statement (.feq a b) := by
  refine ⟨_, by rw [encode, opField_packWord]; rfl, ?_, by simp [encode]⟩
  exact (packWord_and _ _ _ _ _ 0xFF#8 0xF#4 0x0#4 0x0#4 0xF#4 0xFF#8).trans (by simp; rfl)

theorem fdec (a : FReg) (k : Slot) : Statement (.fdec a k) := by
  refine ⟨_, by rw [encode, opField_packWord]; rfl, ?_, by simp [encode]⟩
  exact (packWord_and _ _ _ _ _ 0xFF#8 0x0#4 0xF#4 0xF#4 0xF#4 0xFC#8).trans (by simp; rfl)

theorem fenc (a : FReg) (k : Slot) : Statement (.fenc a k) := by
  refine ⟨_, by rw [encode, opField_packWord]; rfl, ?_, by simp [encode]⟩
  exact (packWord_and _ _ _ _ _ 0xFF#8 0xF#4 0x0#4 0xF#4 0xF#4 0xFC#8).trans (by simp; rfl)

theorem mid (a : MReg) : Statement (.mid a) := by
  refine ⟨_, by rw [encode, opField_packWord]; rfl, ?_, by simp [encode]⟩
  exact (packWord_and _ _ _ _ _ 0xFF#8 0xC#4 0xF#4 0xF#4 0xF#4 0xFF#8).trans (by simp; rfl)

theorem mmul (a b c : MReg) : Statement (.mmul a b c) := by
  refine ⟨_, by rw [encode, opField_packWord]; rfl, ?_, by simp [encode]⟩
  exact (packWord_and _ _ _ _ _ 0xFF#8 0xC#4 0xC#4 0xC#4 0xF#4 0xFF#8).trans (by simp; rfl)

theorem minv (a b : MReg) : Statement (.minv a b) := by
  refine ⟨_, by rw [encode, opField_packWord]; rfl, ?_, by simp [encode]⟩
  exact (packWord_and _ _ _ _ _ 0xFF#8 0xC#4 0xC#4 0xF#4 0xF#4 0xFF#8).trans (by simp; rfl)

theorem meq (a b : MReg) : Statement (.meq a b) := by
  refine ⟨_, by rw [encode, opField_packWord]; rfl, ?_, by simp [encode]⟩
  exact (packWord_and _ _ _ _ _ 0xFF#8 0xF#4 0xC#4 0xC#4 0xF#4 0xFF#8).trans (by simp; rfl)

theorem mchk (a : MReg) : Statement (.mchk a) := by
  refine ⟨_, by rw [encode, opField_packWord]; rfl, ?_, by simp [encode]⟩
  exact (packWord_and _ _ _ _ _ 0xFF#8 0xF#4 0xC#4 0xF#4 0xF#4 0xFF#8).trans (by simp; rfl)

theorem mdec (a : MReg) : Statement (.mdec a) := by
  refine ⟨_, by rw [encode, opField_packWord]; rfl, ?_, by simp [encode]⟩
  exact (packWord_and _ _ _ _ _ 0xFF#8 0xC#4 0xF#4 0xF#4 0xF#4 0xFF#8).trans (by simp; rfl)

theorem menc (a : MReg) : Statement (.menc a) := by
  refine ⟨_, by rw [encode, opField_packWord]; rfl, ?_, by simp [encode]⟩
  exact (packWord_and _ _ _ _ _ 0xFF#8 0xF#4 0xC#4 0xF#4 0xF#4 0xFF#8).trans (by simp; rfl)

theorem drst : Statement .drst := by
  refine ⟨_, by rw [encode, opField_packWord]; rfl, ?_, rfl⟩
  exact (packWord_and _ _ _ _ _ 0xFF#8 0xF#4 0xF#4 0xF#4 0xF#4 0xFF#8).trans (by simp; rfl)

theorem dabs (v : Byte) : Statement (.dabs v) := by
  refine ⟨_, by rw [encode, opField_packWord]; rfl, ?_, by simp [encode]⟩
  exact (packWord_and _ _ _ _ _ 0xFF#8 0xF#4 0xF#4 0xF#4 0xF#4 0x00#8).trans (by simp; rfl)

theorem dabsb (n : BitVec 7) : Statement (.dabsb n) := by
  refine ⟨_, by rw [encode, opField_packWord]; rfl, ?_, by simp [encode]⟩
  exact (packWord_and _ _ _ _ _ 0xFF#8 0xF#4 0xF#4 0xF#4 0xF#4 0x80#8).trans (by simp; rfl)

theorem dsum : Statement .dsum := by
  refine ⟨_, by rw [encode, opField_packWord]; rfl, ?_, rfl⟩
  exact (packWord_and _ _ _ _ _ 0xFF#8 0xF#4 0xF#4 0xF#4 0xF#4 0xFF#8).trans (by simp; rfl)

theorem dget (a : MReg) : Statement (.dget a) := by
  refine ⟨_, by rw [encode, opField_packWord]; rfl, ?_, by simp [encode]⟩
  exact (packWord_and _ _ _ _ _ 0xFF#8 0xC#4 0xF#4 0xF#4 0xF#4 0xFF#8).trans (by simp; rfl)

end Sys2Proof.Laws.EncodesItsRow
end

