-- ==== Sys2Proof/Machine/Assembler.lean ====
section
/-! DEFINITION. The assembler syntax (30_encoding.md R99) and the pseudo-instructions (R100). A
line is a list of characters; an assembly error is `none`. Blanks, digit case and leading zeros
are fixed by log 19. -/

namespace Sys2Proof.Machine

/-- The pseudo-instructions of 30_encoding.md R100. -/
inductive Pseudo where
  | fsqr (fd fs : FReg)
  | fdbl (fd fs : FReg)
  | fclr (fd : FReg)
  | msqr (md ms : MReg)
  | dwrite (bs : List Byte)
deriving DecidableEq, Repr

/-- The commands a pseudo-instruction stands for; DWRITE's are issued with a POLL between them
(30_encoding.md R100). -/
def Pseudo.expand : Pseudo → List Instr
  | .fsqr fd fs => [.fmul fd fs fs]
  | .fdbl fd fs => [.fadd fd fs fs]
  | .fclr fd => [.fsub fd fd fd]
  | .msqr md ms => [.mmul md ms ms]
  | .dwrite bs => bs.map .dabs

/-! Words of a line. -/

def isBlank (c : Char) : Bool := c == ' ' || c == '\t'

def trimBlanks (cs : List Char) : List Char :=
  ((cs.dropWhile isBlank).reverse.dropWhile isBlank).reverse

/-- The parts of a line between commas. -/
def commaParts : List Char → List (List Char)
  | [] => [[]]
  | c :: cs =>
    if c == ',' then [] :: commaParts cs
    else
      match commaParts cs with
      | [] => [[c]]
      | p :: ps => (c :: p) :: ps

/-- The mnemonic and the operands of a line. -/
def splitLine (line : List Char) : List Char × List (List Char) :=
  let t := trimBlanks line
  let rest := trimBlanks (t.dropWhile fun c => !isBlank c)
  (t.takeWhile fun c => !isBlank c, if rest.isEmpty then [] else (commaParts rest).map trimBlanks)

/-! Numbers and register names. -/

def digitVal (c : Char) : Option Nat :=
  if 48 ≤ c.toNat ∧ c.toNat ≤ 57 then some (c.toNat - 48)
  else if 97 ≤ c.toNat ∧ c.toNat ≤ 102 then some (c.toNat - 87)
  else if 65 ≤ c.toNat ∧ c.toNat ≤ 70 then some (c.toNat - 55)
  else none

/-- The value of digits read so far, with one digit more. -/
def addDigit (radix : Nat) (acc : Option Nat) (c : Char) : Option Nat :=
  match acc, digitVal c with
  | some v, some d => if d < radix then some (v * radix + d) else none
  | _, _ => none

def readDigits (radix : Nat) (cs : List Char) : Option Nat :=
  if cs.isEmpty then none else cs.foldl (addDigit radix) (some 0)

/-- An immediate: decimal, or hex after `0x`, below the bound (30_encoding.md R99). -/
def readImm (bound : Nat) (cs : List Char) : Option Nat :=
  let v := match cs with
    | '0' :: 'x' :: ds => readDigits 16 ds
    | _ => readDigits 10 cs
  v.filter (· < bound)

/-- A register name: the letter in either case, then its number (30_encoding.md R99). -/
def readReg (upper lower : Char) (count : Nat) (cs : List Char) : Option Nat :=
  match cs with
  | c :: ds =>
    if (c == upper || c == lower) && !(ds.length > 1 && ds.head? == some '0') then
      (readDigits 10 ds).filter (· < count)
    else none
  | [] => none

def readFReg (cs : List Char) : Option FReg := (readReg 'F' 'f' 16 cs).map (Fin.ofNat 16)
def readMReg (cs : List Char) : Option MReg := (readReg 'M' 'm' 4 cs).map (Fin.ofNat 4)
def readSlot (cs : List Char) : Option Slot := (readImm 4 cs).map (Fin.ofNat 4)
def readByte (cs : List Char) : Option Byte := (readImm 256 cs).map (BitVec.ofNat 8)
def readCount (cs : List Char) : Option (BitVec 7) := (readImm 65 cs).map (BitVec.ofNat 7)

/-! The forms of operand lists. -/

def asm0 (i : Instr) : List (List Char) → Option (List Instr)
  | [] => some [i]
  | _ => none

def asm1 {α : Type} (ra : List Char → Option α) (k : α → List Instr) :
    List (List Char) → Option (List Instr)
  | [a] => (ra a).map k
  | _ => none

def asm2 {α β : Type} (ra : List Char → Option α) (rb : List Char → Option β)
    (k : α → β → List Instr) : List (List Char) → Option (List Instr)
  | [a, b] => (ra a).bind fun x => (rb b).map fun y => k x y
  | _ => none

def asm3 {α : Type} (r : List Char → Option α) (k : α → α → α → List Instr) :
    List (List Char) → Option (List Instr)
  | [a, b, c] => (r a).bind fun x => (r b).bind fun y => (r c).map fun z => k x y z
  | _ => none

/-- DWRITE's operands: one byte or more. -/
def asmBytes : List (List Char) → Option (List Instr)
  | [] => none
  | args => (args.mapM readByte).map fun bs => (Pseudo.dwrite bs).expand

/-- Every mnemonic and pseudo-instruction with its operand form (30_encoding.md R99, R100). -/
def asmTable : List (String × (List (List Char) → Option (List Instr))) :=
  [ ("FADD", asm3 readFReg fun a b c => [.fadd a b c]),
    ("FSUB", asm3 readFReg fun a b c => [.fsub a b c]),
    ("FMUL", asm3 readFReg fun a b c => [.fmul a b c]),
    ("FINV", asm2 readFReg readFReg fun a b => [.finv a b]),
    ("FEQ", asm2 readFReg readFReg fun a b => [.feq a b]),
    ("FDEC", asm2 readFReg readSlot fun a k => [.fdec a k]),
    ("FENC", asm2 readFReg readSlot fun a k => [.fenc a k]),
    ("MID", asm1 readMReg fun a => [.mid a]),
    ("MMUL", asm3 readMReg fun a b c => [.mmul a b c]),
    ("MINV", asm2 readMReg readMReg fun a b => [.minv a b]),
    ("MEQ", asm2 readMReg readMReg fun a b => [.meq a b]),
    ("MCHK", asm1 readMReg fun a => [.mchk a]),
    ("MDEC", asm1 readMReg fun a => [.mdec a]),
    ("MENC", asm1 readMReg fun a => [.menc a]),
    ("DRST", asm0 .drst),
    ("DABS", asm1 readByte fun b => [.dabs b]),
    ("DABSB", asm1 readCount fun n => [.dabsb n]),
    ("DSUM", asm0 .dsum),
    ("DGET", asm1 readMReg fun a => [.dget a]),
    ("FSQR", asm2 readFReg readFReg fun a b => (Pseudo.fsqr a b).expand),
    ("FDBL", asm2 readFReg readFReg fun a b => (Pseudo.fdbl a b).expand),
    ("FCLR", asm1 readFReg fun a => (Pseudo.fclr a).expand),
    ("MSQR", asm2 readMReg readMReg fun a b => (Pseudo.msqr a b).expand),
    ("DWRITE", asmBytes) ]

/-- The words of one line: a command, a pseudo-instruction, or `.word` with a raw 32-bit value
(30_encoding.md R99, R100). -/
def assembleLine (line : List Char) : Option (List Word) :=
  let (name, args) := splitLine line
  if name == ".word".toList then
    match args with
    | [v] => (readImm (2 ^ 32) v).map fun n => [BitVec.ofNat 32 n]
    | _ => none
  else
    match asmTable.find? fun row => row.1.toList == name with
    | some row => (row.2 args).map fun is => is.map encode
    | none => none

end Sys2Proof.Machine
end

