-- ==== Sys2Proof/Tests/Slice0.lean ====
section
/-! SUPPORT. Tests: the ill-formed term, a word of every constructor written out from its encoding,
single steps with results from spec/95_test_vectors.md and the rules' examples, and for every
statement with hypotheses a concrete state that meets them. -/

namespace Sys2Proof.Tests

open Sys2Proof.Machine

/-! ## Well-formedness (30_encoding.md R94, R96) -/

theorem test_wf_refuses_count_65 : (Instr.dabsb 65).wf = false := by decide
theorem test_wf_accepts_count_64 : (Instr.dabsb 64).wf = true := by decide

/-! ## Decoding: words written out from the formats of 30_encoding.md R91, R92, R95 -/

theorem test_decode_fadd :
    decode 0b00000001_0001_0010_0011_0000_00000000 = .ok (.fadd 1 2 3) := by decide
theorem test_decode_fsub :
    decode 0b00000010_1111_0000_1000_0000_00000000 = .ok (.fsub 15 0 8) := by decide
theorem test_decode_fmul :
    decode 0b00000011_0010_0000_0001_0000_00000000 = .ok (.fmul 2 0 1) := by decide
theorem test_decode_finv :
    decode 0b00000100_0100_0001_0000_0000_00000000 = .ok (.finv 4 1) := by decide
theorem test_decode_feq :
    decode 0b00000101_0000_0100_0101_0000_00000000 = .ok (.feq 4 5) := by decide
theorem test_decode_fdec :
    decode 0b00000110_0101_0000_0000_0000_00000011 = .ok (.fdec 5 3) := by decide
theorem test_decode_fenc :
    decode 0b00000111_0000_0101_0000_0000_00000010 = .ok (.fenc 5 2) := by decide
theorem test_decode_mid :
    decode 0b00010000_0011_0000_0000_0000_00000000 = .ok (.mid 3) := by decide
theorem test_decode_mmul :
    decode 0b00010001_0000_0001_0010_0000_00000000 = .ok (.mmul 0 1 2) := by decide
theorem test_decode_minv :
    decode 0b00010010_0010_0001_0000_0000_00000000 = .ok (.minv 2 1) := by decide
theorem test_decode_meq :
    decode 0b00010011_0000_0000_0011_0000_00000000 = .ok (.meq 0 3) := by decide
theorem test_decode_mchk :
    decode 0b00010100_0000_0001_0000_0000_00000000 = .ok (.mchk 1) := by decide
theorem test_decode_mdec :
    decode 0b00010101_0001_0000_0000_0000_00000000 = .ok (.mdec 1) := by decide
theorem test_decode_menc :
    decode 0b00010110_0000_0010_0000_0000_00000000 = .ok (.menc 2) := by decide
theorem test_decode_drst :
    decode 0b00100000_0000_0000_0000_0000_00000000 = .ok .drst := by decide
theorem test_decode_dabs :
    decode 0b00100001_0000_0000_0000_0000_10000000 = .ok (.dabs 0x80) := by decide
theorem test_decode_dabsb :
    decode 0b00100010_0000_0000_0000_0000_01000000 = .ok (.dabsb 64) := by decide
theorem test_decode_dsum :
    decode 0b00100011_0000_0000_0000_0000_00000000 = .ok .dsum := by decide
theorem test_decode_dget :
    decode 0b00100100_0011_0000_0000_0000_00000000 = .ok (.dget 3) := by decide

/-- Illegal words by name: V50 to V56 of 95_test_vectors.md. -/
theorem test_decode_illegal :
    decode 0x00000000 = .error .unlistedOpcode ∧ decode 0x01123001 = .error .fixedBits ∧
    decode 0x11400000 = .error .fixedBits ∧ decode 0x06000004 = .error .fixedBits ∧
    decode 0x22000041 = .error .constraint ∧ decode 0x08000000 = .error .unlistedOpcode ∧
    decode 0x01123100 = .error .fixedBits := by decide

/-- Words of 30_encoding.md R99, encoded. -/
theorem test_encode_listed :
    encode (.fadd 1 2 3) = 0x01123000 ∧ encode (.finv 4 1) = 0x04410000 ∧
    encode (.fenc 5 2) = 0x07050002 ∧ encode (.mmul 0 0 1) = 0x11001000 ∧
    encode (.minv 2 1) = 0x12210000 ∧ encode (.dabsb 64) = 0x22000040 ∧
    encode (.dget 3) = 0x24300000 := by decide

/-- Lines of the table of 30_encoding.md R99 and a pseudo-instruction of R100. -/
theorem test_assemble :
    assembleLine "FENC F5, 2".toList = some [0x07050002] ∧
    assembleLine "DABS 0x80".toList = some [0x21000080] ∧
    assembleLine "MID M4".toList = none ∧
    assembleLine "DWRITE 1, 2".toList = some [0x21000001, 0x21000002] := by decide +kernel

/-! ## Helpers -/

/-- The state a meaning answers, `s` itself if it answers none. -/
def after (i : Instr) (s : State) : State :=
  match exec i s with
  | .next t => t
  | .fault _ => s
  | .refused _ => s

/-- The state a step answers, `s` itself if it answers none. -/
def stepped (s : State) : State :=
  match step s with
  | .next t => t
  | .fault _ => s
  | .refused _ => s

/-- F1 and F2 hold these values, M1 and M2 these matrices. -/
def regs (x y : Nat) (X Y : Mat) : State :=
  (((State.reset.writeF 1 (.ofNat x)).writeF 2 (.ofNat y)).writeM 1 X).writeM 2 Y

def field (x y : Nat) : State := regs x y I2 I2
def mats (X Y : Mat) : State := regs 0 0 X Y

/-- XB holds these bytes from address 0 on. -/
def filled (bs : List Byte) : State := State.reset.memWrite 0 bs

/-- This command word is pending. -/
def pending (w : Word) : State := State.reset.accept w

/-- The host's inputs. -/
def inputs (l : List Input) : State := State.reset.withInputs l

/-- X and Y of 95_test_vectors.md section 2. -/
def X0 : Nat := 0x0123456789ABCDEF0123456789ABCDEF
def Y0 : Nat := 0x7EDCBA9876543210FEDCBA9876543210

/-! ## Commands: results from 95_test_vectors.md and the rules' examples -/

/-- V7: the sum is exactly P. -/
theorem test_fadd_wraps : ((after (.fadd 3 1 2) (field X0 Y0)).readF 3).val = 0 := by decide
/-- R140: FADD F1, F1, F1 doubles. -/
theorem test_fadd_aliased : ((after (.fadd 1 1 1) (field 5 0)).readF 1).val = 10 := by decide
/-- V13a. -/
theorem test_fsub_order :
    ((after (.fsub 3 2 1) (field X0 Y0)).readF 3).val = 0x7DB97530ECA86421FDB97530ECA86421 := by
  decide
/-- V9: 0 − 1. -/
theorem test_fsub_borrows : ((after (.fsub 3 1 2) (field 0 1)).readF 3).val = P - 1 := by decide
/-- V20. -/
theorem test_fmul_folds :
    ((after (.fmul 3 1 2) (field X0 Y0)).readF 3).val = 0x46B059BA497ED1B76A092C4ADC5835E9 := by
  decide
/-- V21b. -/
theorem test_finv_value :
    ((after (.finv 3 1) (field X0 0)).readF 3).val = 0x55B47E9BFDDDDB74AEEB30D9FDDB99B9 := by
  decide +kernel
/-- V22. -/
theorem test_finv_zero :
    (after (.finv 1 1) (field 0 0)).errcode = 2 ∧
    (after (.finv 1 1) (field 0 0)).errcmd = 0x04110000 := by decide
/-- V23. -/
theorem test_feq : (after (.feq 1 2) (field 9 9)).eqFlag = true ∧
    (after (.feq 1 2) (field 9 10)).eqFlag = false := by decide
/-- V14e: the block of X. -/
theorem test_fdec_value :
    ((after (.fdec 5 0) (filled [0x01, 0x23, 0x45, 0x67, 0x89, 0xAB, 0xCD, 0xEF, 0x01, 0x23, 0x45,
      0x67, 0x89, 0xAB, 0xCD, 0xEF])).readF 5).val = X0 := by decide +kernel
/-- V14b: the block of P. -/
theorem test_fdec_P :
    (after (.fdec 5 0) (filled (0x7F :: List.replicate 15 0xFF))).errcode = 1 := by
  decide +kernel
/-- V14f. -/
theorem test_fenc_slot_2 :
    (after (.fenc 1 2) (field 0x0102 0)).xb =
      (List.range 14).map (fun i => (32 + i, 0)) ++ [(46, 1), (47, 2)] := by decide
/-- R190. -/
theorem test_mid : (after (.mid 1) (mats GA GB)).readM 1 = I2 := by decide
/-- V30, V31: not commutative. -/
theorem test_mmul_order :
    (after (.mmul 0 1 2) (mats GA GB)).readM 0 = .ofNats 2 1 1 1 ∧
    (after (.mmul 0 2 1) (mats GA GB)).readM 0 = .ofNats 1 1 1 2 := by decide
/-- V37. -/
theorem test_minv_value :
    (after (.minv 1 1) (mats (.ofNats 2 1 1 1) I2)).readM 1 = .ofNats 1 (P - 1) (P - 1) 2 := by
  decide
/-- V39. -/
theorem test_minv_singular :
    (after (.minv 3 1) (mats (.ofNats 2 0 0 1) I2)).errcode = 2 := by decide
/-- V41. -/
theorem test_meq : (after (.meq 1 2) (mats I2 I2)).eqFlag = true ∧
    (after (.meq 1 2) (mats I2 GA)).eqFlag = false := by decide
/-- V40. -/
theorem test_mchk : (after (.mchk 1) (mats GB I2)).eqFlag = true ∧
    (after (.mchk 1) (mats (.ofNats 1 1 1 1) I2)).eqFlag = false := by decide
/-- V42: 64 zero bytes. -/
theorem test_mdec_zeros :
    (after (.mdec 1) (filled (List.replicate 64 0))).readM 1 = .ofNats 0 0 0 0 := by
  decide +kernel
/-- V43: byte 48 is 0x80. -/
theorem test_mdec_bad_block :
    (after (.mdec 1) ((filled (enc64 I2)).memWrite 48 [0x80])).errcode = 1 := by decide +kernel
/-- V44: the last bytes of the four blocks. -/
theorem test_menc :
    [15, 31, 47, 63].map (after (.menc 1) (mats (.ofNats 2 1 1 1) I2)).xb.read =
      [some 2, some 1, some 1, some 1] := by decide +kernel
/-- R220. -/
theorem test_drst : (after .drst (State.reset.setDigest GA)).digest = .ofNats 1 0 0 1 := by decide
/-- V24a, V24c: bit order. -/
theorem test_dabs_msb_first :
    (after (.dabs 0x80) State.reset).digest = .ofNats 1 7 1 8 ∧
    (after (.dabs 0x01) State.reset).digest = .ofNats 8 7 1 1 := by decide +kernel
/-- V24d: byte order. -/
theorem test_dabsb_two_bytes :
    (after (.dabsb 2) (filled [1, 2])).digest = .ofNats 0x3F 0x76 0x08 0x0F := by decide +kernel
/-- V1: the empty digest's image. -/
theorem test_dsum :
    [15, 31, 47, 63].map (after .dsum State.reset).xb.read = [some 1, some 0, some 0, some 1] := by
  decide +kernel
/-- R224. -/
theorem test_dget :
    (after (.dget 3) (State.reset.setDigest (.ofNats 1 8 0 1))).readM 3 = .ofNats 1 8 0 1 := by
  decide

/-! ## The core and the host window -/

/-- V58: FINV of an unwritten register records it and raises no hardware error. -/
theorem test_unwritten_read :
    (stepped (pending 0x04100000)).faults = [⟨.f 0, 0x04100000⟩] ∧
    (stepped (pending 0x04100000)).statusWord = 0 ∧
    (stepped (pending 0x04100000)).written (.f 1) = false := by decide +kernel
/-- R276: a command accepted in that state is not executed; R290: a hard reset still acts, and the
record stays. -/
theorem test_faulted_turn :
    (stepped ((stepped (pending 0x04100000)).accept 0x21000000)).pend = some 0x21000000 ∧
    (stepped ((stepped (pending 0x04100000)).accept 0x21000000)).digest = I2 ∧
    (stepped (((stepped (pending 0x04100000)).accept 0x21000000).withInputs [.hardReset])).pend =
      none ∧
    (stepped (((stepped (pending 0x04100000)).accept 0x21000000).withInputs
      [.hardReset])).faults = [⟨.f 0, 0x04100000⟩] := by decide +kernel
/-- V50: the all-zero word; ERRCODE tells it from no error. -/
theorem test_illegal_zero_word :
    (stepped (pending 0)).errcode = 3 ∧ (stepped (pending 0)).errcmd = 0 := by decide
/-- L3-7, the dropped write: STATUS reads OVR and BUSY. -/
theorem test_busy_write :
    (stepped ((pending 0x21000000).withInputs [.access (.write 8 0x40 0xAA)])).statusWord = 5 ∧
    (stepped ((pending 0x21000000).withInputs [.access (.write 8 0x40 0xAA)])).xb = [] := by
  decide
/-- L3-4 step 4: CLRERR. -/
theorem test_clrerr :
    (stepped ((State.reset.raise .malformedEncoding 0x15000000).withInputs
      [.access (.write 32 0x08 2)])).statusWord = 0 := by decide
/-- V57: a word written while an error is latched is discarded. -/
theorem test_discarded :
    (stepped ((State.reset.raise .malformedEncoding 0x15000000).withInputs
      [.access (.write 32 0x00 0x10000000)])).statusWord = 0x10 := by decide
/-- R62: an 8-bit read of STATUS is refused. -/
theorem test_undefined_access :
    (match step (inputs [.access (.read 8 0x04)]) with
      | .refused r => r = .undefinedAccess 8 0x04
      | .next _ => False
      | .fault _ => False) := by
  simp [step, inputs, takeInput, hostAccess, targetOf]

/-! ## Witnesses: states and operands that meet the statements' hypotheses -/

theorem witness_DecodeThenEncodeReturnsWord : decode 0x22000040 = .ok (.dabsb 64) := by decide

/-- The core's turn in both its forms: no input left, and a core turn with an input behind it. -/
theorem witness_CoreTurn (w : Word) :
    CoreTurn (pending w) (pending w) ∧
    CoreTurn ((pending w).withInputs [.coreTurn, .hardReset])
      ((pending w).withInputs [.hardReset]) := ⟨.inl ⟨rfl, rfl⟩, .inr ⟨_, rfl, rfl⟩⟩

theorem witness_StepRunsDecodedCommand :
    ((pending 0x20000000).faults = [] ∧ (pending 0x20000000).pend = some 0x20000000 ∧
      decode 0x20000000 = .ok .drst ∧ (pending 0x20000000).inputs = []) ∧
    ((State.reset.placed 0x20000000).pend = some 0x20000000 ∧
      (State.reset.placed 0x20000000).inputs = .coreTurn :: []) := by decide

theorem witness_IllegalWordRaisesIllegalCommand :
    (∀ w : Word, CoreTurn (pending w) (pending w) ∧ (pending w).faults = [] ∧
      (pending w).pend = some w) ∧
    IllegalWord 0x00000000 ∧ IllegalWord 0x01123001 ∧ IllegalWord 0x22000041 := by
  refine ⟨fun w => ⟨(witness_CoreTurn w).1, rfl, rfl⟩, .inl (by decide), .inr (.inl ?_),
    .inr (.inr ?_)⟩
  · exact ⟨_, List.mem_cons_self, by decide, by decide⟩
  · exact ⟨⟨0x22000000, 0xFFFFFF80, fun w => (immField w).toNat ≤ 64,
      fun w => .dabsb (countField w)⟩, by simp [opcodeTable], by decide, by decide⟩

theorem witness_PendingCommandCompletes :
    (CoreTurn (pending 0x01312000) (pending 0x01312000) ∧ (pending 0x01312000).faults = [] ∧
      (pending 0x01312000).pend ≠ none) ∧
    (CoreTurn State.reset State.reset ∧ State.reset.pend = none) :=
  ⟨⟨(witness_CoreTurn _).1, rfl, by decide⟩, .inl ⟨rfl, rfl⟩, rfl⟩

theorem witness_ErrorEntryIsExact :
    CoreTurn (pending 0) (pending 0) ∧ (pending 0).pend = some 0 ∧ (pending 0).errcode = 0 ∧
    step (pending 0) = .next ((pending 0).raise .illegalCommand 0) ∧
    ((pending 0).raise .illegalCommand 0).errcode ≠ 0 :=
  ⟨(witness_CoreTurn 0).1, rfl, rfl, rfl, by decide⟩

/-- The witness of FaddWritesSum, FsubWritesDifference, FmulWritesProduct and FeqSetsEqToEquality
(fs1 = F1, fs2 = F2), and of FencStoresImageInSlot (fs = F1). -/
theorem witness_written_field_sources :
    (field 5 7).written (.f 1) = true ∧ (field 5 7).written (.f 2) = true := by decide

/-- The witness of MmulWritesMatrixProduct and MeqSetsEqToEquality (ms1 = M1, ms2 = M2), and of
MchkSetsEqToDeterminantOne and MencStoresImageInBuffer (ms = M1). -/
theorem witness_written_matrix_sources :
    (mats GA GB).written (.m 1) = true ∧ (mats GA GB).written (.m 2) = true := by decide

theorem witness_FinvWritesUniqueInverseOrRaises :
    (field 3 0).written (.f 1) = true ∧ ((field 3 0).readF 1).val ≠ 0 ∧
    (field 3 0).written (.f 2) = true ∧ ((field 3 0).readF 2).val = 0 ∧ 1 < P ∧
    ((field (P - 1) 0).readF 1).val * (P - 1) % P = 1 := by decide

theorem witness_FdecWritesBlockValueOrRaises :
    GoodBlock ((filled (0x7F :: List.replicate 14 0xFF ++ [0xFE])).memRead (16 * 0) 16) ∧
    ¬ GoodBlock ((filled (0x7F :: List.replicate 15 0xFF)).memRead (16 * 0) 16) ∧
    ¬ GoodBlock ((filled (0x80 :: List.replicate 15 0)).memRead (16 * 0) 16) := by
  unfold GoodBlock; decide +kernel

theorem witness_MinvWritesInverseOrRaises :
    (mats GA (.ofNats 1 1 1 1)).written (.m 1) = true ∧
    DetOne ((mats GA (.ofNats 1 1 1 1)).readM 1) ∧
    (mats GA (.ofNats 1 1 1 1)).written (.m 2) = true ∧
    ¬ DetOne ((mats GA (.ofNats 1 1 1 1)).readM 2) := by
  unfold DetOne; decide

theorem witness_MdecWritesBlockValuesOrRaises :
    (∀ k, k < 4 → GoodBlock (block16 ((filled (enc64 I2)).memRead 0 64) k)) ∧
    (3 < 4 ∧ ¬ GoodBlock (block16 (((filled (enc64 I2)).memWrite 48 [0x80]).memRead 0 64) 3)) ∧
    (0 < 4 ∧ ¬ GoodBlock (block16 (((filled (enc64 I2)).memWrite 0 [0x80]).memRead 0 64) 0)) := by
  unfold GoodBlock; decide +kernel

theorem witness_DabsbAbsorbsPrefixOrRaises :
    (0 : BitVec 7).toNat ≤ 64 ∧ (64 : BitVec 7).toNat ≤ 64 ∧ 64 < (65 : BitVec 7).toNat ∧
    64 < (127 : BitVec 7).toNat := by decide

theorem witness_FieldLaws : (Fe.ofNat 1) ≠ .ofNat 0 ∧ (Fe.ofNat (P - 1)) ≠ .ofNat 0 := by decide

theorem witness_FieldEncodingLaws :
    (List.replicate 16 (0 : Byte)).length = 16 ∧
    dec16 (List.replicate 16 0) = some (.ofNat 0) ∧
    dec16 (0x7F :: List.replicate 15 0xFF) = none := by decide +kernel

theorem witness_MatrixEncodingLaws :
    (List.replicate 64 (0 : Byte)).length = 64 ∧
    dec64 (List.replicate 64 0) = some (.ofNats 0 0 0 0) ∧
    dec16 (block16 (List.replicate 64 0xFF) 3) = none := by decide +kernel

theorem witness_MatrixProductLaws : det GA = .ofNat 1 ∧ det GB = .ofNat 1 := by decide

theorem witness_ShortcutInverseIsInverse : det (.ofNats 2 1 1 1) = .ofNat 1 := by decide

theorem witness_AbsorptionIsHomomorphism : det GB = .ofNat 1 := by decide

theorem witness_OnlyFourCommandsRaise :
    (Instr.dabsb 64).wf = true ∧ (Instr.finv 0 1).wf = true := by decide

theorem witness_CommandsReachOnlyListedBytes :
    (∀ r ∈ readsRegs (.fenc 1 0), (field 1 2).written r = true) ∧
    (∀ a, readsXB (.fenc 1 0) a = true → Memory.read [(63, 1)] a = (field 1 2).xb.read a) ∧
    writesXB (.fenc 1 0) 15 = true ∧ writesXB (.fenc 1 0) 16 = false := by
  refine ⟨by decide, fun a h => ?_, by decide⟩
  cases h

theorem witness_UnwrittenReadIsRecordedAndStops :
    (∀ r ∈ readsRegs (.fadd 3 1 2), (field 1 2).written r = true) ∧
    (readsRegs (.fadd 3 1 0) = [.f 1] ++ .f 0 :: [] ∧
      (∀ q ∈ [RegName.f 1], (field 1 2).written q = true) ∧
      (field 1 2).written (.f 0) = false) := by decide

theorem witness_FaultedStateTakesNoCoreStep :
    (CoreTurn ((State.reset.recordUnwritten (.f 0) 0x04100000).accept 0x21000000)
        ((State.reset.recordUnwritten (.f 0) 0x04100000).accept 0x21000000) ∧
      ((State.reset.recordUnwritten (.f 0) 0x04100000).accept 0x21000000).faults ≠ []) ∧
    (∃ t, step ((State.reset.recordUnwritten (.f 0) 0x04100000).withInputs [.hardReset]) =
      .next t) := ⟨⟨.inl ⟨rfl, rfl⟩, by decide⟩, _, rfl⟩

theorem witness_MemReadGivesBytesOrDraws :
    (0 < 2 ∧ (filled [7]).xb.read (0 + 0) = some 7) ∧
    (1 < 2 ∧ (filled [7]).xb.read (0 + 1) = none) := by decide

theorem witness_CmdWriteDroppedDiscardedOrAccepted :
    ((pending 0).withInputs [.access (.write 32 0x00 1)]).pend ≠ none ∧
    ((State.reset.raise .illegalCommand 0).withInputs [.access (.write 32 0x00 1)]).errcode ≠ 0 ∧
    (inputs [.access (.write 32 0x00 1)]).inputs = .access (.write 32 0x00 1) :: [] := by decide

theorem witness_BusyWritesAreDroppedAndOverrunSticks :
    (((pending 0).withInputs [.access (.write 8 0x7F 1)]).pend ≠ none ∧
      ((pending 0).withInputs [.access (.write 8 0x7F 1)]).inputs =
        .access (.write 8 0x7F 1) :: [] ∧ 63 < 64 ∧ 0x7F = 0x40 + 63) ∧
    (((pending 0).withInputs [.access (.write 32 0x08 1)]).pend ≠ none) ∧
    ((inputs [.access (.write 32 0x08 2)]).setOvr.ovr = true ∧
      ∃ t, step (inputs [.access (.write 32 0x08 2)]).setOvr = .next t) :=
  ⟨by decide, by decide, rfl, _, rfl⟩

theorem witness_ReadsHaveNoSideEffect :
    (DefinedAccess 32 0x0C ∧ DefinedAccess 8 0x40 ∧ DefinedAccess 8 0x7F) ∧
    (inputs [.access (.read 8 0x7F)]).inputs = .access (.read 8 0x7F) :: [] ∧
    (inputs [.access (.write 32 0x04 1)]).inputs = .access (.write 32 0x04 1) :: [] ∧
    (State.reset.pend = none ∧ 63 < 64) := by
  refine ⟨⟨.inl ⟨rfl, by decide⟩, .inr ⟨rfl, 0, by decide⟩, .inr ⟨rfl, 63, by decide⟩⟩, rfl, rfl,
    by decide⟩

theorem witness_StatusWordFields :
    (inputs [.access (.read 32 0x04)]).inputs = .access (.read 32 0x04) :: [] := rfl

theorem witness_XbReadGivesByteOrDraw :
    ((pending 0).withInputs [.access (.read 8 (0x40 + 0))]).pend ≠ none ∧
    ((filled [7]).withInputs [.access (.read 8 (0x40 + 0))]).xb.read 0 = some 7 ∧
    (inputs [.access (.read 8 (0x40 + 63))]).xb.read 63 = none ∧
    (inputs [.access (.read 8 (0x40 + 63))]).pend = none := by decide

theorem witness_XbWriteStoresOneByte :
    63 < 64 ∧ (inputs [.access (.write 8 (0x40 + 63) 5)]).pend = none ∧
    (inputs [.access (.write 8 (0x40 + 63) 5)]).inputs = .access (.write 8 (0x40 + 63) 5) :: [] ∧
    (inputs [.access (.write 8 (0x40 + 63) 5)]).xb.wf := by decide

theorem witness_UndefinedAccessIsRefused :
    (inputs [.access (.read 32 0x40)]).inputs = .access (.read 32 0x40) :: [] ∧
    DefinedAccess 8 0x40 ∧ ¬ DefinedAccess 32 0x40 ∧ ¬ DefinedAccess 8 0x3F ∧
    ¬ DefinedAccess 8 0x80 := by
  refine ⟨rfl, .inr ⟨rfl, 0, by decide⟩, ?_, ?_, ?_⟩ <;> unfold DefinedAccess <;> omega

theorem witness_ClrerrReturnsToAccepting :
    State.reset.pend = none ∧ (2 : Word).getLsbD 0 = false ∧ (2 : Word).getLsbD 1 = true ∧
    (0xFFFFFFFC : Word).getLsbD 0 = false ∧ (0xFFFFFFFC : Word).getLsbD 1 = false ∧
    (inputs [.access (.write 32 0x08 2), .access (.write 32 0x00 5)]).inputs =
      .access (.write 32 0x08 2) :: .access (.write 32 0x00 5) :: [] ∧
    (inputs [.access (.write 32 0x08 0xFFFFFFFC)]).inputs =
      .access (.write 32 0x08 0xFFFFFFFC) :: [] := by decide

theorem witness_ResetsLeaveResetState :
    (inputs [.hardReset]).inputs = .hardReset :: [] ∧
    (inputs [.access (.write 32 0x08 3)]).pend = none ∧ (3 : Word).getLsbD 0 = true := by decide

theorem witness_FirstErrorStaysLatched :
    (State.reset.raise .illegalCommand 0).pend = none ∧
    (State.reset.raise .illegalCommand 0).errcode ≠ 0 ∧
    step (State.reset.raise .illegalCommand 0) = .next (State.reset.raise .illegalCommand 0) :=
  ⟨rfl, by decide, rfl⟩

/-- The hypotheses of StepKeepsInvariant, met by a state other than reset: an error is latched. -/
theorem witness_StepKeepsInvariant :
    Inv (State.reset.raise .illegalCommand 1) ∧
    step (State.reset.raise .illegalCommand 1) = .next (State.reset.raise .illegalCommand 1) := by
  refine ⟨⟨by decide, by decide, by decide, by decide, ?_, ?_, by decide⟩, rfl⟩
  · unfold DetOne; decide
  · intro r h; cases h

theorem witness_InstancesNeverInteract :
    ∃ q : Instances 2, Instances.stepAt (Vector.replicate 2 State.reset) 0 = .next q ∧
      (1 : Fin 2) ≠ 0 := ⟨_, rfl, by decide⟩

theorem witness_Ready : Ready State.reset := ⟨rfl, rfl, rfl, rfl⟩

theorem witness_SumReturnsDigestOfString :
    Ready State.reset ∧ ∀ c ∈ [List.replicate 64 (0 : Byte), [], [1]], c.length ≤ 64 :=
  ⟨⟨rfl, rfl, rfl, rfl⟩, by decide⟩

theorem witness_ConcatReturnsProduct :
    (∃ h ∈ [[(1 : Byte)]], h.length ≠ 64) ∧
    (∀ h ∈ [enc64 GA, enc64 GB], h.length = 64) ∧
    [enc64 GA, enc64 GB].mapM dec64 = some [GA, GB] ∧
    [enc64 GA, List.replicate 64 0xFF].mapM dec64 = none := by decide +kernel

theorem witness_SubtractorsReturnQuotient :
    (enc64 GA).length = 64 ∧ dec64 (enc64 GA) = some GA ∧ det GA = .ofNat 1 ∧
    dec64 (enc64 (.ofNats 1 1 1 1)) = some (.ofNats 1 1 1 1) ∧
    det (.ofNats 1 1 1 1) ≠ .ofNat 1 ∧ dec64 (List.replicate 64 0xFF) = none := by decide +kernel

theorem witness_ValidateComparesWithProduct :
    Ready State.reset ∧ (∃ x ∈ [[(1 : Byte)]], x.length ≠ 64) ∧
    (∀ x ∈ [enc64 GA, enc64 GB], x.length = 64) ∧
    [enc64 GA, enc64 GB].mapM dec64 = some [GA, GB] ∧
    [enc64 GA, List.replicate 64 0xFF].mapM dec64 = none :=
  ⟨witness_Ready, witness_ConcatReturnsProduct⟩

end Sys2Proof.Tests
end

/-! SUPPORT and PROOFS. The host window (20_memory.md R62, R68): which accesses have a target, what
the step answers to a read or a write with and without one, and the three cases of a CMD write. -/

namespace Sys2Proof.Machine

/-! The defined accesses and their targets. -/

/-- R62's list, read off the targets: an access is defined exactly when it reaches something. -/
theorem definedAccess_iff_targetOf {bits offset : Nat} :
    DefinedAccess bits offset ↔ ∃ t, targetOf bits offset = some t := by
  constructor
  · rintro (⟨rfl, rfl | rfl | rfl | rfl⟩ | ⟨rfl, k, hk, rfl⟩)
    · exact ⟨_, targetOf_cmd⟩
    · exact ⟨_, targetOf_status⟩
    · exact ⟨_, targetOf_ctrl⟩
    · exact ⟨_, targetOf_errcmd⟩
    · exact ⟨_, targetOf_xb hk⟩
  · rintro ⟨t, ht⟩
    rcases targetOf_eq_some ht with ⟨hb, ho, -⟩ | ⟨hb, ho, -⟩ | ⟨hb, ho, -⟩ | ⟨hb, ho, -⟩ |
      ⟨hb, k, ho, -⟩
    · exact .inl ⟨hb, .inl ho⟩
    · exact .inl ⟨hb, .inr (.inl ho)⟩
    · exact .inl ⟨hb, .inr (.inr (.inl ho))⟩
    · exact .inl ⟨hb, .inr (.inr (.inr ho))⟩
    · exact .inr ⟨hb, k, k.isLt, ho⟩

theorem targetOf_eq_none_of_undefined {bits offset : Nat} (h : ¬ DefinedAccess bits offset) :
    targetOf bits offset = none :=
  Option.eq_none_iff_forall_ne_some.mpr fun t ht => h (definedAccess_iff_targetOf.mpr ⟨t, ht⟩)

/-! The step at a host access. -/

section Access

variable {s : State} {bits offset : Nat} {v : Word} {rest : List Input} {t : Target}

theorem step_read_of_target (hin : s.inputs = .access (.read bits offset) :: rest)
    (ht : targetOf bits offset = some t) :
    step s = .next (hostRead t (s.withInputs rest)) := by
  rw [step_of_cons s hin]
  simp [takeInput, hostAccess, ht]

theorem step_write_of_target (hin : s.inputs = .access (.write bits offset v) :: rest)
    (ht : targetOf bits offset = some t) :
    step s = .next (hostWrite t v (s.withInputs rest)) := by
  rw [step_of_cons s hin]
  simp [takeInput, hostAccess, ht]

theorem step_read_of_undefined (hin : s.inputs = .access (.read bits offset) :: rest)
    (h : ¬ DefinedAccess bits offset) : step s = .refused (.undefinedAccess bits offset) := by
  rw [step_of_cons s hin]
  simp [takeInput, hostAccess, targetOf_eq_none_of_undefined h]

theorem step_write_of_undefined (hin : s.inputs = .access (.write bits offset v) :: rest)
    (h : ¬ DefinedAccess bits offset) : step s = .refused (.undefinedAccess bits offset) := by
  rw [step_of_cons s hin]
  simp [takeInput, hostAccess, targetOf_eq_none_of_undefined h]

end Access

/-! The three cases of a CMD write, in R68's order. -/

section CmdWrite

variable {s : State} (w : Word)

/-- BUSY is the presence of a pending command (10_state.md R41). -/
theorem busy_iff_pend_ne_none : s.busy = true ↔ s.pend ≠ none := by
  simp [State.busy, Option.isSome_iff_ne_none]

theorem writeCmd_of_pending (h : s.pend ≠ none) : writeCmd w s = s.setOvr :=
  if_pos (busy_iff_pend_ne_none.mpr h)

theorem writeCmd_of_error (hp : ¬ s.pend ≠ none) (he : s.errcode ≠ 0) : writeCmd w s = s := by
  rw [writeCmd, if_neg (mt busy_iff_pend_ne_none.mp hp), if_pos he]

theorem writeCmd_of_idle (hp : ¬ s.pend ≠ none) (he : ¬ s.errcode ≠ 0) :
    writeCmd w s = s.accept w := by
  rw [writeCmd, if_neg (mt busy_iff_pend_ne_none.mp hp), if_neg he]

end CmdWrite

/-! The obligations. -/

/-- Settles O49: R62's list is where `targetOf` has a target, and the step of a read or a write
turns on that target alone. -/
theorem undefinedAccessIsRefused : Obligations.UndefinedAccessIsRefused := by
  intro s bits offset v rest a ha hin
  rcases ha with rfl | rfl
  · refine ⟨fun hdef => ?_, step_read_of_undefined hin⟩
    obtain ⟨t, ht⟩ := definedAccess_iff_targetOf.mp hdef
    exact ⟨_, step_read_of_target hin ht⟩
  · refine ⟨fun hdef => ?_, step_write_of_undefined hin⟩
    obtain ⟨t, ht⟩ := definedAccess_iff_targetOf.mp hdef
    exact ⟨_, step_write_of_target hin ht⟩

/-- Settles O43, one case of R68 after the other. -/
theorem cmdWriteDroppedDiscardedOrAccepted : Obligations.CmdWriteDroppedDiscardedOrAccepted := by
  intro s w rest hin
  refine ⟨writeCmd w (s.withInputs rest), step_write_of_target hin targetOf_cmd, ?_⟩
  split_ifs with hp he
  · exact writeCmd_of_pending w hp
  · exact writeCmd_of_error w hp he
  · exact writeCmd_of_idle w hp he

end Sys2Proof.Machine

/-! SUPPORT. The table's rows have distinct opcodes, so the decoder's row is the one row of the word's
opcode; each case of 30_encoding.md R96 is an error of the decoder. -/

namespace Sys2Proof

/-- No two rows of 30_encoding.md R95 share an opcode. -/
theorem opcodes_nodup : (opcodeTable.map Row.op).Nodup := by decide

theorem rowOf_eq_none_iff {op : BitVec 8} : rowOf op = none ↔ ∀ r ∈ opcodeTable, op ≠ r.op := by
  simp [rowOf, List.find?_eq_none, eq_comm (a := op)]

theorem mem_table_of_rowOf {op : BitVec 8} {r : Row} (h : rowOf op = some r) :
    r ∈ opcodeTable ∧ op = r.op := by
  have hop : (r.op == op) = true := List.find?_some (p := fun q : Row => q.op == op) h
  exact ⟨List.mem_of_find?_eq_some h, (beq_iff_eq.mp hop).symm⟩

theorem rowOf_eq_some_iff {op : BitVec 8} {r : Row} :
    rowOf op = some r ↔ r ∈ opcodeTable ∧ op = r.op := by
  refine ⟨mem_table_of_rowOf, fun ⟨hr, hop⟩ => ?_⟩
  cases hq : rowOf op with
  | none => exact absurd hop (rowOf_eq_none_iff.mp hq r hr)
  | some q =>
    obtain ⟨hmem, heq⟩ := mem_table_of_rowOf hq
    exact congrArg some (List.inj_on_of_nodup_map opcodes_nodup hmem hr (heq.symm.trans hop))

theorem decode_of_unlisted {w : Word} (h : ∀ r ∈ opcodeTable, opField w ≠ r.op) :
    decode w = .error .unlistedOpcode := by
  simp [decode, rowOf_eq_none_iff.mpr h]

/-- A word whose opcode is a row's is decoded by that row. -/
theorem decode_of_row {w : Word} {r : Row} (hr : r ∈ opcodeTable) (hop : opField w = r.op) :
    decode w = if w &&& r.mask ≠ r.pattern then .error .fixedBits
      else if !r.constraint w then .error .constraint else .ok (r.build w) := by
  simp [decode, rowOf_eq_some_iff.mpr ⟨hr, hop⟩]

theorem decode_of_fixedBits {w : Word} {r : Row} (hr : r ∈ opcodeTable) (hop : opField w = r.op)
    (hbits : w &&& r.mask ≠ r.pattern) : decode w = .error .fixedBits := by
  rw [decode_of_row hr hop, if_pos hbits]

/-- The decoder reports a must-be-zero bit before a failing constraint; both are errors. -/
theorem decode_of_constraint {w : Word} {r : Row} (hr : r ∈ opcodeTable) (hop : opField w = r.op)
    (hc : r.constraint w = false) : ∃ e, decode w = .error e := by
  by_cases hbits : w &&& r.mask = r.pattern
  · exact ⟨.constraint, by simp [decode_of_row hr hop, hbits, hc]⟩
  · exact ⟨.fixedBits, decode_of_fixedBits hr hop hbits⟩

end Sys2Proof

/-! PROOFS. The core's turn on an illegal word (30_encoding.md R96). -/

namespace Sys2Proof.Machine

/-- The decoder refuses a word in each of the three cases of 30_encoding.md R96. -/
theorem decode_of_illegalWord {w : Word} (h : IllegalWord w) : ∃ e, decode w = .error e := by
  rcases h with hop | ⟨r, hr, hop, hbits⟩ | ⟨r, hr, hop, hc⟩
  · exact ⟨_, decode_of_unlisted hop⟩
  · exact ⟨_, decode_of_fixedBits hr hop hbits⟩
  · exact decode_of_constraint hr hop hc

theorem execute_of_error {w : Word} {e : IllegalReason} (s : State) (h : decode w = .error e) :
    execute w s = .next (s.raise .illegalCommand w) := by
  simp [execute, h]

/-- `raise` is error entry (60_exceptions.md R262). -/
theorem errorEntry_raise (s : State) (e : ErrorKind) (w : Word) :
    ErrorEntry s (s.raise e w) e.code w := by
  constructor <;> simp

/-- An unfaulted core's turn executes the pending word in the state with the turn's input gone. -/
theorem step_of_pending {s u : State} {w : Word} (hturn : CoreTurn s u) (hf : s.faults = [])
    (hp : s.pend = some w) : step s = execute w u := by
  obtain ⟨hstep, hu⟩ := step_of_coreTurn s hturn
  rw [hstep]
  exact coreStep_some u (by rw [hu, withInputs_faults, hf]) (by rw [hu, withInputs_pend, hp])

/-- Settles O6: the decoder refuses an illegal word, so the turn's execution is error entry, which
draws nothing. -/
theorem illegalWordRaisesIllegalCommand : Obligations.IllegalWordRaisesIllegalCommand := by
  intro s u w hturn hf hp hill
  obtain ⟨e, he⟩ := decode_of_illegalWord hill
  have hstep : step s = .next (u.raise .illegalCommand w) :=
    (step_of_pending hturn hf hp).trans (execute_of_error u he)
  exact ⟨_, hstep, errorEntry_raise u .illegalCommand w, raise_draws u _ _⟩

end Sys2Proof.Machine

/-! SUPPORT and PROOFS. The addition, subtraction and multiplication of F as the spec's datapaths
compute them (40_field.md R120–R122): one conditional subtraction, and the Mersenne fold. -/

namespace Sys2Proof.Machine

/-! Arithmetic modulo the Mersenne number P. -/

theorem P_eq : P = 2 ^ 127 - 1 := rfl

/-- One conditional subtraction reduces a number below 2P. -/
theorem condSub_eq_mod {r : Nat} (h : r < 2 * P) : (if r ≥ P then r - P else r) = r % P := by
  split_ifs with hr
  · rw [Nat.mod_eq_sub_mod hr, Nat.mod_eq_of_lt (by omega)]
  · exact (Nat.mod_eq_of_lt (by omega)).symm

/-- The fold adds the two halves of t = H · 2^127 + L. -/
theorem foldSum_eq (t : Nat) : foldSum t = t / 2 ^ 127 + t % 2 ^ 127 := by
  rw [foldSum, Nat.shiftRight_eq_div_pow, P_eq, Nat.and_two_pow_sub_one_eq_mod]

/-- The fold keeps the residue, because 2^127 ≡ 1 modulo P. -/
theorem foldSum_mod (t : Nat) : foldSum t % P = t % P := by
  have ht : t = t / 2 ^ 127 * P + foldSum t := by rw [foldSum_eq, P_eq]; omega
  conv_rhs => rw [ht, Nat.mul_add_mod_self_right]

/-- The fold of a sum of two canonical values needs no subtraction, only P mapped to 0. -/
theorem foldSum_le_P {t : Nat} (h : t ≤ 2 * P - 2) : foldSum t ≤ P := by
  rw [P_eq] at h ⊢
  rw [foldSum_eq]
  omega

/-- With P mapped to 0, a number up to P is its own residue. -/
theorem ite_eq_mod_of_le_P {r : Nat} (h : r ≤ P) : (if r = P then 0 else r) = r % P := by
  split_ifs with hr
  · rw [hr, Nat.mod_self]
  · exact (Nat.mod_eq_of_lt (lt_of_le_of_ne h hr)).symm

/-! Sum and difference (R120, R121). -/

theorem val_addF (x y : Fe) : (addF x y).val = (x.val + y.val) % P := rfl

theorem val_subF (x y : Fe) : (subF x y).val = (x.val + (P - y.val)) % P := rfl

/-- subF is the non-negative remainder of the integer difference. -/
theorem val_subF_int (x y : Fe) :
    ((subF x y).val : Int) = (x.val - y.val : Int) % (P : Int) := by
  have hy := y.isLt
  have hsum : ((x.val + (P - y.val) : Nat) : Int) = (x.val - y.val : Int) + P := by omega
  rw [val_subF, Int.natCast_mod, hsum, Int.add_emod_right]

theorem addDatapath_eq_mod (x y : Fe) : addDatapath x.val y.val = (x.val + y.val) % P :=
  condSub_eq_mod (by have := x.isLt; have := y.isLt; omega)

theorem subDatapath_eq_subF (x y : Fe) : subDatapath x.val y.val = (subF x y).val :=
  condSub_eq_mod (by have := x.isLt; have := y.isLt; omega)

/-- The fast reduction of the sum (40_field.md R120). -/
theorem fastReduction_eq_mod {t : Nat} (h : t ≤ 2 * P - 2) :
    (if (t &&& P) + (t >>> 127) = P then 0 else (t &&& P) + (t >>> 127)) = t % P := by
  have hfold : (t &&& P) + (t >>> 127) = foldSum t := Nat.add_comm _ _
  rw [hfold, ite_eq_mod_of_le_P (foldSum_le_P h), foldSum_mod]

/-- Settles O28: each datapath reduces a number below 2P by one conditional subtraction, and the
fast reduction is the fold. -/
theorem addAndSubtractDatapathsAreModular : Obligations.AddAndSubtractDatapathsAreModular := by
  intro x y
  have hx := x.isLt
  have hy := y.isLt
  have hsum : x.val + y.val ≤ 2 * P - 2 := by omega
  exact ⟨val_addF x y, addDatapath_eq_mod x y, fastReduction_eq_mod hsum, val_subF_int x y,
    subDatapath_eq_subF x y, hsum, by omega, by omega⟩

/-! Product (R122). -/

theorem val_mulF (x y : Fe) : (mulF x y).val = x.val * y.val % P := rfl

theorem mul_le_sq (x y : Fe) : x.val * y.val ≤ (P - 1) ^ 2 := by
  rw [sq]
  exact Nat.mul_le_mul (Nat.le_sub_one_of_lt x.isLt) (Nat.le_sub_one_of_lt y.isLt)

/-- The high part of a product: (P − 1)^2 = (2^127 − 4) · 2^127 + 4. -/
theorem highPart_le {t : Nat} (h : t ≤ (P - 1) ^ 2) : t / 2 ^ 127 ≤ 2 ^ 127 - 4 :=
  (Nat.div_le_div_right h).trans (by decide)

theorem foldSum_le {t : Nat} (h : t ≤ (P - 1) ^ 2) : foldSum t ≤ 2 * P - 3 := by
  have hH := highPart_le h
  rw [foldSum_eq, P_eq]
  omega

theorem mulDatapath_eq_mod (x y : Fe) : mulDatapath x.val y.val = x.val * y.val % P := by
  have hfold : foldSum (x.val * y.val) < 2 * P :=
    (foldSum_le (mul_le_sq x y)).trans_lt (by decide)
  exact (condSub_eq_mod hfold).trans (foldSum_mod _)

/-- Settles O29: the fold keeps the residue and stays below 2P. -/
theorem mersenneFoldMultiplies : Obligations.MersenneFoldMultiplies := by
  intro x y
  have hle := mul_le_sq x y
  refine ⟨val_mulF x y, mulDatapath_eq_mod x y, hle, ?_, Nat.and_le_right, foldSum_le hle⟩
  rw [Nat.shiftRight_eq_div_pow]
  exact highPart_le hle

/-! Inverse (R123). -/

/-- mulF x y = 1 in plain arithmetic. -/
theorem mulF_eq_one_iff (x y : Fe) : mulF x y = .ofNat 1 ↔ x.val * y.val % P = 1 := by
  rw [Fin.ext_iff, val_mulF, val_ofNat, Nat.mod_eq_of_lt (show 1 < P by decide)]

/-- A field element has at most one inverse. -/
theorem eq_of_mulF_eq_one {x y z : Fe} (hy : mulF x y = .ofNat 1) (hz : mulF x z = .ofNat 1) :
    z = y := by
  rw [← feZ_inj, feZ_mulF, feZ_one] at hy hz
  rw [← feZ_inj]
  exact left_inv_eq_right_inv (by rw [mul_comm, hz]) hy

end Sys2Proof.Machine

/-! SUPPORT and PROOFS. enc16 and dec16 (40_field.md R130): which 16-byte strings decode, that the
two are inverse to each other, and how many strings decode. -/

namespace Sys2Proof.Machine

/-- The value as the rule writes it: byte i counts 256^(n − 1 − i). -/
theorem beValue_eq_sum (bs : List Byte) :
    beValue bs =
      ∑ i ∈ Finset.range bs.length, (bs.getD i 0).toNat * 256 ^ (bs.length - 1 - i) := by
  induction bs with
  | nil => rfl
  | cons b bs ih =>
    rw [beValue_cons, ih, List.length_cons, Finset.sum_range_succ', Nat.add_comm]
    congr 1
    refine Finset.sum_congr rfl fun i _ => ?_
    rw [List.getD_cons_succ, show bs.length + 1 - 1 - (i + 1) = bs.length - 1 - i by omega]

theorem beValue_enc16 (x : Fe) : beValue (enc16 x) = x.val := by
  rw [enc16_eq, beValue_beBytes, Nat.mod_eq_of_lt (x.isLt.trans (by decide))]

/-- A canonical value is below 2^127, so the top bit of its image is clear. -/
theorem headD_enc16_le (x : Fe) : (enc16 x).headD 0 ≤ 0x7F := by
  have hx : x.val < 128 * 256 ^ 15 := x.isLt.trans (by decide)
  have hhead : (enc16 x).headD 0 = byteAt x 0 := by
    rw [List.headD_eq_head?_getD, List.head?_eq_getElem?, getElem?_enc16 x (by decide)]
    rfl
  rw [hhead, BitVec.le_def, byteAt, BitVec.toNat_ofNat]
  have hdiv : x.val / 256 ^ 15 < 128 := Nat.div_lt_of_lt_mul (by rwa [mul_comm] at hx)
  exact (Nat.mod_le _ _).trans (Nat.le_of_lt_succ hdiv)

theorem goodBlock_enc16 (x : Fe) : GoodBlock (enc16 x) :=
  ⟨BitVec.lt_def.mpr (Nat.lt_succ_of_le (BitVec.le_def.mp (headD_enc16_le x))), by
    rw [beValue_enc16]; exact x.isLt.ne⟩

theorem dec16_enc16 (x : Fe) : dec16 (enc16 x) = some x := by
  obtain ⟨v, hv, hval⟩ := dec16_of_good (length_enc16 x) (goodBlock_enc16 x)
  rw [hv, Fin.ext (hval.trans (beValue_enc16 x))]

/-- A 16-byte string fails to decode exactly when it is not well-formed. -/
theorem dec16_eq_none_iff {bs : List Byte} (hl : bs.length = 16) :
    dec16 bs = none ↔ ¬ GoodBlock bs := by
  refine ⟨fun h hg => ?_, dec16_of_bad⟩
  obtain ⟨v, hv, -⟩ := dec16_of_good hl hg
  simp [h] at hv

theorem val_of_dec16 {bs : List Byte} {x : Fe} (h : dec16 bs = some x) : x.val = beValue bs := by
  unfold dec16 at h
  split_ifs at h
  exact (congrArg Fin.val (Option.some.inj h)).symm

theorem enc16_of_dec16 {bs : List Byte} {x : Fe} (hl : bs.length = 16) (h : dec16 bs = some x) :
    enc16 x = bs := by
  rw [enc16_eq, val_of_dec16 h, ← hl, beBytes_beValue]

/-- dec16 and enc16 as a bijection of the decodable strings with F. -/
def decodableEquiv : { bs : List Byte // bs.length = 16 ∧ (dec16 bs).isSome } ≃ Fe where
  toFun bs := (dec16 bs.1).get bs.2.2
  invFun x := ⟨enc16 x, length_enc16 x, by rw [dec16_enc16]; rfl⟩
  left_inv bs := Subtype.ext (enc16_of_dec16 bs.2.1 (Option.some_get bs.2.2).symm)
  right_inv x := by simp [dec16_enc16]

/-- Settles O31: the round trips make dec16 a bijection onto F, which has P elements. -/
theorem fieldEncodingLaws : Obligations.FieldEncodingLaws := by
  refine ⟨fun x => ⟨length_enc16 x, fun i hi => getElem?_enc16 x hi, headD_enc16_le x,
    dec16_enc16 x⟩, fun bs hl => ⟨?_, dec16_eq_none_iff hl, fun x hx =>
    ⟨val_of_dec16 hx, enc16_of_dec16 hl hx⟩⟩, ?_⟩
  · rw [beValue_eq_sum, hl]
  · rw [Nat.card_congr decodableEquiv, Nat.card_fin, P_eq]

end Sys2Proof.Machine

/-! SUPPORT and PROOFS. The field unit's commands (40_field.md R140–R146): what a command that writes
a field register, EQ or a slot leaves unchanged, then each command's result. -/

namespace Sys2Proof.Machine

/-! The frame of each kind of effect. -/

/-- Draws are no part of what a command must leave unchanged (log 7). -/
theorem Leaves.of_drew {s t : State} {n : Nat} {fd : FReg → Prop} {md : MReg → Prop}
    {at_ : Nat → Prop} (h : Leaves (s.drew n) t fd md at_) : Leaves s t fd md at_ :=
  ⟨h.f, h.m, h.xb, h.ovr, h.errcode, h.errcmd, h.faults, h.inputs, h.readData, h.pend⟩

theorem ErrorEntry.of_drew {s t : State} {n : Nat} {e : BitVec 4} {w : Word}
    (h : ErrorEntry (s.drew n) t e w) : ErrorEntry s t e w :=
  ⟨h.errcode, h.errcmd, h.pend, h.f, h.m, h.digest, h.xb, h.eqFlag, h.ovr, h.faults, h.inputs,
    h.readData⟩

section Frame

variable (s : State)

@[simp] theorem readF_complete (r : FReg) : s.complete.readF r = s.readF r := rfl

@[simp] theorem written_complete (r : RegName) : s.complete.written r = s.written r := by
  cases r <;> rfl

theorem leaves_writeF (fd : FReg) (v : Fe) :
    Leaves s (s.writeF fd v).complete (· = fd) nothing nothing where
  f r hr := getF_writeF_of_ne s fd r v hr
  m _ _ := rfl
  xb _ _ := rfl
  ovr := rfl
  errcode := rfl
  errcmd := rfl
  faults := rfl
  inputs := rfl
  readData := rfl
  pend := rfl

/-- All that a command which writes F[fd] does besides the value. -/
theorem writeF_complete_frame (fd : FReg) (v : Fe) :
    (s.writeF fd v).complete.written (.f fd) = true ∧
    (s.writeF fd v).complete.digest = s.digest ∧ (s.writeF fd v).complete.eqFlag = s.eqFlag ∧
    Leaves s (s.writeF fd v).complete (· = fd) nothing nothing :=
  ⟨by simp, rfl, rfl, leaves_writeF s fd v⟩

theorem readF_writeF_complete (fd : FReg) (v : Fe) : (s.writeF fd v).complete.readF fd = v := by
  simp

theorem leaves_setEq (v : Bool) : Leaves s (s.setEq v).complete nothing nothing nothing := by
  constructor <;> intros <;> rfl

/-- A write of XB changes the bytes of its range alone. -/
theorem leaves_memWrite (k : Nat) (bs : List Byte) :
    Leaves s (s.memWrite k bs).complete nothing nothing
      (fun a => k ≤ a ∧ a < k + bs.length) where
  f _ _ := rfl
  m _ _ := rfl
  xb a ha := (read_memWrite s k a bs).trans (if_neg ha)
  ovr := rfl
  errcode := rfl
  errcmd := rfl
  faults := rfl
  inputs := rfl
  readData := rfl
  pend := rfl

end Frame

/-- XB holds an image where it was written. -/
theorem holdsFe_writeBytes (m : Memory) (k : Nat) (x : Fe) :
    HoldsFe (Memory.writeBytes m k (enc16 x)) k x := by
  intro i hi
  rw [Memory.read_writeBytes, length_enc16, if_pos (by omega), Nat.add_sub_cancel_left,
    getElem?_enc16 x hi]

/-! The commands. -/

/-- Settles O12: Fermat's power is the inverse (`mulF_invF`), and an inverse is unique. -/
theorem finvWritesUniqueInverseOrRaises : Obligations.FinvWritesUniqueInverseOrRaises := by
  intro fd fs s
  refine ⟨by simp [encode, toNat_packWord], fun hw hx => ⟨_, exec_finv_nonzero s hw hx, ?_⟩,
    fun hw hx => ⟨_, exec_finv_zero s hw hx, errorEntry_raise s .invalidArgument _⟩⟩
  have hinv : mulF (s.readF fs) (invF (s.readF fs)) = .ofNat 1 := mulF_invF hx
  have hone := (mulF_eq_one_iff _ _).mp hinv
  rw [readF_writeF_complete]
  refine ⟨?_, hone, fun z hz hmul => ?_, writeF_complete_frame s fd _⟩
  · refine Nat.one_le_iff_ne_zero.mpr fun h0 => ?_
    simp [h0] at hone
  · exact congrArg Fin.val (eq_of_mulF_eq_one hinv ((mulF_eq_one_iff _ ⟨z, hz⟩).mpr hmul))

/-- Settles O14: dec16 succeeds on a well-formed block with its value, and fails on any other. -/
theorem fdecWritesBlockValueOrRaises : Obligations.FdecWritesBlockValueOrRaises := by
  intro fd slot s
  refine ⟨by simp [encode, toNat_packWord], fun hgood => ?_, fun hbad => ?_⟩
  · obtain ⟨v, hv, hval⟩ := dec16_of_good (length_memRead s _ 16) hgood
    obtain ⟨hw, hdig, heq, hleaves⟩ := writeF_complete_frame (s.drew 16) fd v
    exact ⟨_, exec_fdec_some s hv, by rw [readF_writeF_complete, hval], hw, hdig, heq,
      hleaves.of_drew⟩
  · exact ⟨_, exec_fdec_none s (dec16_of_bad hbad),
      (errorEntry_raise (s.drew 16) .malformedEncoding _).of_drew⟩

/-- Settles O15: the image is written to the slot's 16 bytes. -/
theorem fencStoresImageInSlot : Obligations.FencStoresImageInSlot := by
  intro fs slot s
  refine ⟨by simp [encode, toNat_packWord], fun hw => ⟨_, exec_fenc s hw, ?_, rfl,
    by simp, by simp, ?_⟩⟩
  · rw [complete_xb, memWrite_xb]
    exact holdsFe_writeBytes s.xb _ _
  · simpa only [length_enc16] using leaves_memWrite s (slotOffset slot) (enc16 (s.readF fs))

/-- Settles O9: the value is addF's. -/
theorem faddWritesSum : Obligations.FaddWritesSum := by
  intro fd fs1 fs2 s
  refine ⟨by simp [encode, toNat_packWord], fun h1 h2 => ⟨_, exec_fadd s h1 h2, ?_,
    writeF_complete_frame s fd _⟩⟩
  rw [readF_writeF_complete, val_addF]

/-- Settles O10: the value is subF's, read as an integer remainder. -/
theorem fsubWritesDifference : Obligations.FsubWritesDifference := by
  intro fd fs1 fs2 s
  refine ⟨by simp [encode, toNat_packWord], fun h1 h2 => ⟨_, exec_fsub s h1 h2, ?_,
    writeF_complete_frame s fd _⟩⟩
  rw [readF_writeF_complete, val_subF_int]

/-- Settles O11: the value is mulF's. -/
theorem fmulWritesProduct : Obligations.FmulWritesProduct := by
  intro fd fs1 fs2 s
  refine ⟨by simp [encode, toNat_packWord], fun h1 h2 => ⟨_, exec_fmul s h1 h2, ?_,
    writeF_complete_frame s fd _⟩⟩
  rw [readF_writeF_complete, val_mulF]

/-- Settles O13: FEQ's test holds exactly of equal values. -/
theorem feqSetsEqToEquality : Obligations.FeqSetsEqToEquality := by
  intro fs1 fs2 s
  refine ⟨by simp [encode, toNat_packWord], fun h1 h2 => ⟨_, exec_feq s h1 h2, ?_, rfl,
    leaves_setEq s _⟩⟩
  rw [complete_eqFlag, setEq_eqFlag, eqTestF_iff, Fin.ext_iff]

end Sys2Proof.Machine

/-! SUPPORT and PROOFS. The laws of the matrix product, the determinant and the inverse of a matrix
of determinant 1 (41_group.md R172, R174): each is an entrywise ring identity in ZMod P. -/

namespace Sys2Proof.Machine

/-! The product (R172). -/

theorem mulM_assoc (X Y Z : Mat) : mulM (mulM X Y) Z = mulM X (mulM Y Z) := by
  apply Mat.eq_of_feZ <;> simp only [feZ_mulM_a, feZ_mulM_b, feZ_mulM_c, feZ_mulM_d] <;> ring

@[simp] theorem I2_mulM (X : Mat) : mulM I2 X = X := by
  apply Mat.eq_of_feZ <;> simp

@[simp] theorem mulM_I2 (X : Mat) : mulM X I2 = X := by
  apply Mat.eq_of_feZ <;> simp

theorem det_mulM (X Y : Mat) : det (mulM X Y) = mulF (det X) (det Y) := by
  rw [← feZ_inj]
  simp only [feZ_det, feZ_mulF, feZ_mulM_a, feZ_mulM_b, feZ_mulM_c, feZ_mulM_d]
  ring

theorem mulF_one_one : mulF (.ofNat 1) (.ofNat 1) = .ofNat 1 := by
  rw [← feZ_inj, feZ_mulF, feZ_one, mul_one]

theorem det_mulM_eq_one {X Y : Mat} (hX : det X = .ofNat 1) (hY : det Y = .ofNat 1) :
    det (mulM X Y) = .ofNat 1 := by
  rw [det_mulM, hX, hY, mulF_one_one]

theorem mulM_GA_GB : mulM GA GB = .ofNats 2 1 1 1 := by decide

theorem mulM_GB_GA : mulM GB GA = .ofNats 1 1 1 2 := by decide

theorem mulM_GA_GB_ne : mulM GA GB ≠ mulM GB GA := by
  rw [mulM_GA_GB, mulM_GB_GA]
  decide

/-- Settles O33: the product is that of matrices over the commutative ring ZMod P, and the two
generators are a pair that does not commute. -/
theorem matrixProductLaws : Obligations.MatrixProductLaws :=
  ⟨mulM_assoc, fun X => ⟨I2_mulM X, mulM_I2 X⟩, det_mulM, fun _ _ => det_mulM_eq_one,
    mulM_GA_GB, mulM_GB_GA, mulM_GA_GB_ne⟩

/-! The inverse of a matrix of determinant 1 (R174). -/

/-- The determinant as the ring identity that the inverse's laws turn on. -/
theorem feZ_of_det_eq_one {X : Mat} (h : det X = .ofNat 1) :
    feZ X.a * feZ X.d - feZ X.b * feZ X.c = 1 := by
  rw [← feZ_det, h, feZ_one]

section Inverse

variable {X : Mat} (h : det X = .ofNat 1)

include h

theorem mulM_inv2 : mulM X (inv2 X) = I2 := by
  have hdet := feZ_of_det_eq_one h
  apply Mat.eq_of_feZ <;>
    simp only [inv2, feZ_mulM_a, feZ_mulM_b, feZ_mulM_c, feZ_mulM_d, feZ_negF, feZ_I2_a, feZ_I2_b,
      feZ_I2_c, feZ_I2_d]
  case ha | hd => linear_combination hdet
  case hb | hc => ring

theorem inv2_mulM : mulM (inv2 X) X = I2 := by
  have hdet := feZ_of_det_eq_one h
  apply Mat.eq_of_feZ <;>
    simp only [inv2, feZ_mulM_a, feZ_mulM_b, feZ_mulM_c, feZ_mulM_d, feZ_negF, feZ_I2_a, feZ_I2_b,
      feZ_I2_c, feZ_I2_d]
  case ha | hd => linear_combination hdet
  case hb | hc => ring

end Inverse

/-- The shortcut keeps the determinant, whatever it is: the entries of the diagonal are swapped and
the signs of the other two cancel. -/
theorem det_inv2 (X : Mat) : det (inv2 X) = det X := by
  rw [← feZ_inj]
  simp only [feZ_det, inv2, feZ_negF]
  ring

/-- Settles O34: each product's diagonal entries are the determinant and the others cancel. -/
theorem shortcutInverseIsInverse : Obligations.ShortcutInverseIsInverse :=
  fun X h => ⟨rfl, mulM_inv2 h, inv2_mulM h, (det_inv2 X).trans h⟩

end Sys2Proof.Machine

/-! SUPPORT and PROOFS. enc64 and dec64 (41_group.md R180): the blocks of a string, when the four
decode, and the round trips. -/

namespace Sys2Proof.Machine

/-! The four blocks. -/

theorem length_block16 {bs : List Byte} {k : Nat} (hl : bs.length = 64) (hk : k < 4) :
    (block16 bs k).length = 16 := by
  simp only [block16, List.length_take, List.length_drop, hl]
  omega

/-- A 64-byte string is its four blocks joined. -/
theorem append_block16 {bs : List Byte} (hl : bs.length = 64) :
    block16 bs 0 ++ block16 bs 1 ++ block16 bs 2 ++ block16 bs 3 = bs := by
  have hlast : (bs.drop 48).take 16 = bs.drop 48 := List.take_of_length_le (by simp [hl])
  simp only [block16, List.append_assoc, Nat.reduceMul, hlast]
  rw [show (bs.drop 48) = (bs.drop 32).drop 16 by simp, List.take_append_drop,
    show (bs.drop 32) = (bs.drop 16).drop 16 by simp, List.take_append_drop,
    List.drop_zero, List.take_append_drop]

theorem block16_append_zero {x : List Byte} (y : List Byte) (hx : x.length = 16) :
    block16 (x ++ y) 0 = x :=
  List.take_left' hx

theorem block16_append_succ {x : List Byte} (y : List Byte) (k : Nat) (hx : x.length = 16) :
    block16 (x ++ y) (k + 1) = block16 y k := by
  rw [block16, block16, show 16 * (k + 1) = x.length + 16 * k by omega,
    List.drop_length_add_append]

/-- The blocks of an image are the images of the entries. -/
theorem block16_enc64 (X : Mat) :
    block16 (enc64 X) 0 = enc16 X.a ∧ block16 (enc64 X) 1 = enc16 X.b ∧
      block16 (enc64 X) 2 = enc16 X.c ∧ block16 (enc64 X) 3 = enc16 X.d := by
  have hlast : block16 (enc16 X.d) 0 = enc16 X.d := List.take_of_length_le (length_enc16 X.d).le
  simp [enc64, block16_append_zero, block16_append_succ, hlast]

/-! When dec64 succeeds, and when it fails. -/

theorem dec64_eq_some_iff {bs : List Byte} {X : Mat} :
    dec64 bs = some X ↔ dec16 (block16 bs 0) = some X.a ∧ dec16 (block16 bs 1) = some X.b ∧
      dec16 (block16 bs 2) = some X.c ∧ dec16 (block16 bs 3) = some X.d := by
  unfold dec64
  constructor
  · intro h
    split at h
    · next ha hb hc hd =>
      cases h
      exact ⟨ha, hb, hc, hd⟩
    · cases h
  · rintro ⟨ha, hb, hc, hd⟩
    rw [ha, hb, hc, hd]

/-- Blocks that all decode give a matrix. -/
theorem dec64_of_blocks {bs : List Byte} (h : ∀ k, k < 4 → ∃ x, dec16 (block16 bs k) = some x) :
    ∃ X, dec64 bs = some X := by
  obtain ⟨a, ha⟩ := h 0 (by decide)
  obtain ⟨b, hb⟩ := h 1 (by decide)
  obtain ⟨c, hc⟩ := h 2 (by decide)
  obtain ⟨d, hd⟩ := h 3 (by decide)
  exact ⟨⟨a, b, c, d⟩, dec64_eq_some_iff.mpr ⟨ha, hb, hc, hd⟩⟩

theorem dec64_eq_none_iff {bs : List Byte} :
    dec64 bs = none ↔ ∃ k, k < 4 ∧ dec16 (block16 bs k) = none := by
  constructor
  · intro hnone
    by_contra hall
    push Not at hall
    obtain ⟨X, hX⟩ := dec64_of_blocks fun k hk => Option.ne_none_iff_exists'.mp (hall k hk)
    simp [hnone] at hX
  · rintro ⟨k, hk, hbad⟩
    cases hX : dec64 bs with
    | none => rfl
    | some X =>
      obtain ⟨ha, hb, hc, hd⟩ := dec64_eq_some_iff.mp hX
      interval_cases k <;> simp [ha, hb, hc, hd] at hbad

/-! The round trips. -/

theorem dec64_enc64 (X : Mat) : dec64 (enc64 X) = some X := by
  obtain ⟨ha, hb, hc, hd⟩ := block16_enc64 X
  simp [dec64_eq_some_iff, ha, hb, hc, hd, dec16_enc16]

theorem enc64_of_dec64 {bs : List Byte} {X : Mat} (hl : bs.length = 64)
    (h : dec64 bs = some X) : enc64 X = bs := by
  obtain ⟨ha, hb, hc, hd⟩ := dec64_eq_some_iff.mp h
  rw [enc64, enc16_of_dec16 (length_block16 hl (by decide)) ha,
    enc16_of_dec16 (length_block16 hl (by decide)) hb,
    enc16_of_dec16 (length_block16 hl (by decide)) hc,
    enc16_of_dec16 (length_block16 hl (by decide)) hd, append_block16 hl]

/-- Settles O32: a string decodes exactly when its four blocks do, and the round trips are those of
the blocks. -/
theorem matrixEncodingLaws : Obligations.MatrixEncodingLaws := by
  refine ⟨fun X => ⟨rfl, length_enc64 X, dec64_enc64 X⟩, fun bs hl => ⟨dec64_eq_none_iff,
    fun X hX => ?_⟩⟩
  obtain ⟨ha, hb, hc, hd⟩ := dec64_eq_some_iff.mp hX
  exact ⟨ha, hb, hc, hd, enc64_of_dec64 hl hX⟩

end Sys2Proof.Machine

/-! SUPPORT and PROOFS. The matrix unit's commands (41_group.md R190–R196): what a command that
writes a matrix register leaves unchanged, then each command's result. -/

namespace Sys2Proof.Machine

/-! The frame of a matrix register's write. -/

section Frame

variable (s : State) (md : MReg) (X : Mat)

@[simp] theorem readM_complete : s.complete.readM md = s.readM md := rfl

theorem leaves_writeM : Leaves s (s.writeM md X).complete nothing (· = md) nothing where
  f _ _ := rfl
  m r hr := getM_writeM_of_ne s md r X hr
  xb _ _ := rfl
  ovr := rfl
  errcode := rfl
  errcmd := rfl
  faults := rfl
  inputs := rfl
  readData := rfl
  pend := rfl

/-- All that a command which writes M[md] does besides the value. -/
theorem writeM_complete_frame :
    (s.writeM md X).complete.written (.m md) = true ∧
    (s.writeM md X).complete.digest = s.digest ∧ (s.writeM md X).complete.eqFlag = s.eqFlag ∧
    Leaves s (s.writeM md X).complete nothing (· = md) nothing :=
  ⟨by simp, rfl, rfl, leaves_writeM s md X⟩

theorem readM_writeM_complete : (s.writeM md X).complete.readM md = X := by simp

end Frame

/-! The entries of the results in plain arithmetic. -/

/-- A sum of two products reduces once at the end. -/
theorem val_addF_mulF (x y z w : Fe) :
    (addF (mulF x y) (mulF z w)).val = (x.val * y.val + z.val * w.val) % P := by
  rw [val_addF, val_mulF, val_mulF, ← Nat.add_mod]

theorem val_negF (y : Fe) : (negF y).val = (P - y.val) % P := rfl

theorem detIsOne_iff_detOne (X : Mat) : detIsOne X = true ↔ DetOne X :=
  (detIsOne_iff X).trans (det_eq_one_iff X)

/-- Four well-formed blocks decode to their values in order (R180). -/
theorem dec64_of_good {bs : List Byte} (hl : bs.length = 64)
    (h : ∀ k, k < 4 → GoodBlock (block16 bs k)) :
    ∃ X, dec64 bs = some X ∧ X.a.val = beValue (block16 bs 0) ∧
      X.b.val = beValue (block16 bs 1) ∧ X.c.val = beValue (block16 bs 2) ∧
      X.d.val = beValue (block16 bs 3) := by
  obtain ⟨X, hX⟩ := dec64_of_blocks fun k hk =>
    (dec16_of_good (length_block16 hl hk) (h k hk)).imp fun _ hv => hv.1
  obtain ⟨ha, hb, hc, hd⟩ := dec64_eq_some_iff.mp hX
  exact ⟨X, hX, val_of_dec16 ha, val_of_dec16 hb, val_of_dec16 hc, val_of_dec16 hd⟩

/-! The commands. -/

/-- Settles O17: each entry is a row of the old M[ms1] times a column of the old M[ms2]. -/
theorem mmulWritesMatrixProduct : Obligations.MmulWritesMatrixProduct := by
  intro md ms1 ms2 s
  refine ⟨by simp [encode, toNat_packWord], fun h1 h2 => ⟨_, exec_mmul s h1 h2, ?_,
    writeM_complete_frame s md _⟩⟩
  rw [readM_writeM_complete]
  exact ⟨val_addF_mulF _ _ _ _, val_addF_mulF _ _ _ _, val_addF_mulF _ _ _ _,
    val_addF_mulF _ _ _ _⟩

/-- Settles O18: MINV's test is the determinant's, and either branch is one of the two outcomes. -/
theorem minvWritesInverseOrRaises : Obligations.MinvWritesInverseOrRaises := by
  intro md ms s
  refine ⟨by simp [encode, toNat_packWord], fun hw hdet => ?_, fun hw hdet => ?_⟩
  · have hone := (detIsOne_iff_detOne _).mpr hdet
    refine ⟨_, exec_minv_one s hw hone, ?_, writeM_complete_frame s md _⟩
    rw [readM_writeM_complete]
    exact ⟨rfl, val_negF _, val_negF _, rfl⟩
  · have hother := Bool.eq_false_iff.mpr (mt (detIsOne_iff_detOne _).mp hdet)
    exact ⟨_, exec_minv_other s hw hother, errorEntry_raise s .invalidArgument _⟩

/-- Settles O21: dec64 of the 64 bytes read succeeds on good blocks with their values, and fails as
soon as one block is bad. -/
theorem mdecWritesBlockValuesOrRaises : Obligations.MdecWritesBlockValuesOrRaises := by
  intro md s
  refine ⟨by simp [encode, toNat_packWord], fun hgood => ?_, fun ⟨k, hk, hbad⟩ => ?_⟩
  · obtain ⟨X, hX, hvals⟩ := dec64_of_good (length_memRead s 0 64) hgood
    obtain ⟨hw, hdig, heq, hleaves⟩ := writeM_complete_frame (s.drew 64) md X
    refine ⟨_, exec_mdec_some s hX, ?_, hw, hdig, heq, hleaves.of_drew⟩
    rwa [readM_writeM_complete]
  · have hnone : dec64 s.bufferBytes = none := dec64_eq_none_iff.mpr ⟨k, hk, dec16_of_bad hbad⟩
    exact ⟨_, exec_mdec_none s hnone, (errorEntry_raise (s.drew 64) .malformedEncoding _).of_drew⟩

/-- Settles O22: the 64-byte image is written over the whole of XB. -/
theorem mencStoresImageInBuffer : Obligations.MencStoresImageInBuffer := by
  intro ms s
  refine ⟨by simp [encode, toNat_packWord], fun hw => ⟨_, exec_menc s hw, ?_, by simp, by simp, ?_⟩⟩
  · rw [complete_xb, memWrite_xb]
    exact holdsMat_writeBytes s.xb _
  · simpa only [length_enc64, Nat.zero_le, true_and, Nat.zero_add] using
      leaves_memWrite s 0 (enc64 (s.readM ms))

/-- Settles O16: I2 is written, and no source is checked. -/
theorem midWritesIdentity : Obligations.MidWritesIdentity := fun md s =>
  ⟨by simp [encode, toNat_packWord], _, rfl, readM_writeM_complete s md I2,
    writeM_complete_frame s md I2⟩

/-- Settles O19: MEQ's test holds exactly of equal matrices, and enc64 is injective. -/
theorem meqSetsEqToEquality : Obligations.MeqSetsEqToEquality := by
  intro ms1 ms2 s
  have heq : (s.setEq (eqTestM (s.readM ms1) (s.readM ms2))).complete.eqFlag = true ↔
      s.readM ms1 = s.readM ms2 := by
    rw [complete_eqFlag, setEq_eqFlag, eqTestM_iff]
  exact ⟨by simp [encode, toNat_packWord], fun h1 h2 => ⟨_, exec_meq s h1 h2, heq,
    heq.trans ⟨congrArg enc64, enc64_inj⟩, rfl, leaves_setEq s _⟩⟩

/-- Settles O20: MCHK's test is the determinant's, in plain arithmetic. -/
theorem mchkSetsEqToDeterminantOne : Obligations.MchkSetsEqToDeterminantOne := by
  intro ms s
  refine ⟨by simp [encode, toNat_packWord], fun hw => ⟨_, exec_mchk s hw, ?_, rfl,
    leaves_setEq s _⟩⟩
  rw [complete_eqFlag, setEq_eqFlag, detIsOne_iff_detOne]

end Sys2Proof.Machine

/-! SUPPORT and PROOFS. The digest unit (42_digest.md R210–R224): the product with a generator as two
additions, the absorption of a byte as eight products, and each command's result with its frame. -/

namespace Sys2Proof.Machine

/-! The two-adder datapath (R212): a generator's entries are 0 and 1, so in ZMod P a product with it
only adds columns. -/

section Generator

variable (S : Mat)

theorem mulM_GA : mulM S GA = ⟨S.a, addF S.a S.b, S.c, addF S.c S.d⟩ := by
  apply Mat.eq_of_feZ <;> simp [GA, Mat.ofNats]

theorem mulM_GB : mulM S GB = ⟨addF S.a S.b, S.b, addF S.c S.d, S.d⟩ := by
  apply Mat.eq_of_feZ <;> simp [GB, Mat.ofNats]

theorem absorbBitDatapath_eq_absorbBit (b : Bool) : absorbBitDatapath S b = absorbBit S b := by
  cases b with
  | false => exact (mulM_GA S).symm
  | true => exact (mulM_GB S).symm

end Generator

/-- Settles O35: the product with each generator, and the datapath bit by bit. -/
theorem generatorDatapathAbsorbs : Obligations.GeneratorDatapathAbsorbs := fun _ _ _ _ =>
  ⟨mulM_GA _, mulM_GB _, absorbBitDatapath_eq_absorbBit _⟩

/-! The absorption of a byte (R210, R211, R213). -/

/-- Bit i of a byte, read from its value, chooses the generator. -/
theorem generator_getLsbD (v : Byte) (i : Nat) :
    generator (v.getLsbD i) =
      if v.toNat.testBit i then .ofNats 1 0 1 1 else .ofNats 1 1 0 1 := rfl

/-- The fold over the bit positions, written out: bit 7 is multiplied first. -/
theorem absorbByte_eq_mulM (S : Mat) (v : Byte) :
    absorbByte S v =
      mulM (mulM (mulM (mulM (mulM (mulM (mulM (mulM S (generator (v.getLsbD 7)))
        (generator (v.getLsbD 6))) (generator (v.getLsbD 5))) (generator (v.getLsbD 4)))
        (generator (v.getLsbD 3))) (generator (v.getLsbD 2))) (generator (v.getLsbD 1)))
        (generator (v.getLsbD 0)) := rfl

/-! The frame of a write of S. -/

section Frame

variable (s : State) (X : Mat)

theorem leaves_setDigest : Leaves s (s.setDigest X).complete nothing nothing nothing := by
  constructor <;> intros <;> rfl

/-- All that a command which writes S does besides the value. -/
theorem setDigest_complete_frame :
    (s.setDigest X).complete.eqFlag = s.eqFlag ∧
    Leaves s (s.setDigest X).complete nothing nothing nothing :=
  ⟨rfl, leaves_setDigest s X⟩

end Frame

/-! The commands. -/

/-- Settles O24: the byte's absorption is its eight products, each by the generator of one bit. -/
theorem dabsAbsorbsByteMsbFirst : Obligations.DabsAbsorbsByteMsbFirst := by
  intro v s
  refine ⟨by simp [encode, toNat_packWord], _, rfl, ?_, setDigest_complete_frame s _⟩
  rw [complete_digest, setDigest_digest, absorbByte_eq_mulM]
  simp only [generator_getLsbD]

/-- Settles O25: a count up to 64 reads and absorbs its bytes of XB, and a longer one is refused. -/
theorem dabsbAbsorbsPrefixOrRaises : Obligations.DabsbAbsorbsPrefixOrRaises := by
  intro n s
  have himm : n.toNat < 256 := n.isLt.trans (by decide)
  refine ⟨by simp [encode, toNat_packWord, himm], fun hle => ?_, fun hgt => ?_⟩
  · obtain ⟨heq, hleaves⟩ :=
      setDigest_complete_frame (s.drew n.toNat) (absorb s.digest (s.prefixBytes n))
    exact ⟨_, exec_dabsb_le s hle, rfl, heq, hleaves.of_drew⟩
  · exact ⟨_, exec_dabsb_gt s hgt, errorEntry_raise s .illegalCommand _⟩

/-- Settles O26: the 64-byte image of S is written over the whole of XB. -/
theorem dsumStoresDigest : Obligations.DsumStoresDigest := by
  intro s
  refine ⟨by simp [encode, toNat_packWord], _, rfl, ?_, by simp, by simp, ?_⟩
  · rw [complete_xb, memWrite_xb]
    exact holdsMat_writeBytes s.xb s.digest
  · simpa only [length_enc64, Nat.zero_le, true_and, Nat.zero_add] using
      leaves_memWrite s 0 (enc64 s.digest)

/-- Settles O23: S becomes I2, whose entries are 1, 0, 0, 1. -/
theorem drstWritesIdentity : Obligations.DrstWritesIdentity := fun s =>
  ⟨by simp [encode, toNat_packWord], _, rfl, rfl, setDigest_complete_frame s I2⟩

/-- Settles O27: S is written to M[md], and no source is checked. -/
theorem dgetCopiesDigest : Obligations.DgetCopiesDigest := fun md s =>
  ⟨by simp [encode, toNat_packWord], _, rfl, readM_writeM_complete s md s.digest,
    writeM_complete_frame s md s.digest⟩

end Sys2Proof.Machine

/-! SUPPORT and PROOFS. A CTRL write while no command is pending (10_state.md R39): SRST first, then
CLRERR; and the error return (60_exceptions.md R266). -/

namespace Sys2Proof.Machine

section IdleWrite

variable {s : State} {v : Word}

/-! The cases of a CTRL write without SRST. -/

theorem writeCtrl_of_idle (hp : s.pend = none) (hsrst : v.getLsbD 0 = false) :
    writeCtrl v s = if v.getLsbD 1 then s.clearErrors else s := by
  have hidle : ¬ s.busy = true := fun hb => busy_iff_pend_ne_none.mp hb hp
  have hnotSrst : ¬ v.getLsbD 0 = true := Bool.eq_false_iff.mp hsrst
  rw [writeCtrl, if_neg hidle, if_neg hnotSrst]

theorem writeCtrl_of_clrerr (hp : s.pend = none) (hsrst : v.getLsbD 0 = false)
    (hclr : v.getLsbD 1 = true) : writeCtrl v s = s.clearErrors := by
  rw [writeCtrl_of_idle hp hsrst, if_pos hclr]

theorem writeCtrl_of_neither (hp : s.pend = none) (hsrst : v.getLsbD 0 = false)
    (hclr : v.getLsbD 1 = false) : writeCtrl v s = s := by
  rw [writeCtrl_of_idle hp hsrst, if_neg (Bool.eq_false_iff.mp hclr)]

/-- An idle state with no error latched takes the word of a CMD write as its pending command. -/
theorem step_cmdWrite_of_idle {w : Word} {rest : List Input} (hp : s.pend = none)
    (he : s.errcode = 0) (hin : s.inputs = .access (.write 32 0x00 w) :: rest) :
    step s = .next ((s.withInputs rest).accept w) := by
  have haccept : writeCmd w (s.withInputs rest) = (s.withInputs rest).accept w :=
    writeCmd_of_idle w (not_not.mpr hp) (not_not.mpr he)
  rw [step_write_of_target hin targetOf_cmd, hostWrite, haccept]

end IdleWrite

/-- Settles O50: CLRERR is `clearErrors`, which leaves an idle state with no error latched, so a CMD
write behind it is accepted; with neither bit the CTRL write is the identity. -/
theorem clrerrReturnsToAccepting : Obligations.ClrerrReturnsToAccepting := by
  intro s v rest hp hsrst hin
  have hidle : (s.withInputs rest).pend = none := hp
  have hstep : step s = .next (writeCtrl v (s.withInputs rest)) :=
    step_write_of_target hin targetOf_ctrl
  refine ⟨fun hclr => ?_, fun hclr => ?_⟩
  · rw [writeCtrl_of_clrerr hidle hsrst hclr] at hstep
    have hcleared : (s.withInputs rest).clearErrors.pend = none := hp
    exact ⟨_, hstep, rfl, fun w rest' hcmd => step_cmdWrite_of_idle hcleared rfl hcmd⟩
  · rw [writeCtrl_of_neither hidle hsrst hclr] at hstep
    exact hstep

end Sys2Proof.Machine

/-! SUPPORT and PROOFS. The round trips of the decoder and the encoder, and the mask/match table
(30_encoding.md R91–R97, R99). -/

namespace Sys2Proof

/-! Encoding, then decoding. -/

/-- Every command's word is selected and read back by its row. -/
theorem encodesItsRow : ∀ i : Instr, Laws.EncodesItsRow.Statement i
  | .fadd a b c => Laws.EncodesItsRow.fadd a b c
  | .fsub a b c => Laws.EncodesItsRow.fsub a b c
  | .fmul a b c => Laws.EncodesItsRow.fmul a b c
  | .finv a b => Laws.EncodesItsRow.finv a b
  | .feq a b => Laws.EncodesItsRow.feq a b
  | .fdec a k => Laws.EncodesItsRow.fdec a k
  | .fenc a k => Laws.EncodesItsRow.fenc a k
  | .mid a => Laws.EncodesItsRow.mid a
  | .mmul a b c => Laws.EncodesItsRow.mmul a b c
  | .minv a b => Laws.EncodesItsRow.minv a b
  | .meq a b => Laws.EncodesItsRow.meq a b
  | .mchk a => Laws.EncodesItsRow.mchk a
  | .mdec a => Laws.EncodesItsRow.mdec a
  | .menc a => Laws.EncodesItsRow.menc a
  | .drst => Laws.EncodesItsRow.drst
  | .dabs v => Laws.EncodesItsRow.dabs v
  | .dabsb n => Laws.EncodesItsRow.dabsb n
  | .dsum => Laws.EncodesItsRow.dsum
  | .dget a => Laws.EncodesItsRow.dget a

/-- A count and its immediate are the same number. -/
theorem toNat_immField_dabsb (n : BitVec 7) : (immField (encode (.dabsb n))).toNat = n.toNat := by
  rw [encode, immField_packWord, BitVec.toNat_setWidth,
    Nat.mod_eq_of_lt (n.isLt.trans (by decide))]

/-- DABSB's is the one row with an extra constraint (R96 (c)). -/
theorem constraint_of_op_ne {r : Row} (hr : r ∈ opcodeTable) (hop : r.op ≠ 0x22) (w : Word) :
    r.constraint w = true := by
  have hall : ∀ q ∈ opcodeTable, q.op = 0x22 ∨ q.constraint w = true := by
    simp only [opcodeTable, List.forall_mem_cons]
    refine ⟨?_, ?_, ?_, ?_, ?_, ?_, ?_, ?_, ?_, ?_, ?_, ?_, ?_, ?_, ?_, ?_, .inl rfl, ?_, ?_, ?_⟩
    all_goals simp
  exact (hall r hr).resolve_left hop

/-- A row's constraint holds of a command's word exactly when the command is well-formed. -/
theorem constraint_encode {i : Instr} {r : Row} (h : rowOf (opField (encode i)) = some r) :
    r.constraint (encode i) = i.wf := by
  obtain ⟨hr, hop⟩ := mem_table_of_rowOf h
  cases i with
  | dabsb n =>
    rw [encode, opField_packWord] at h
    cases (show rowOf 0x22 = some _ from rfl).symm.trans h
    simp [toNat_immField_dabsb, Instr.wf, countOk]
  | _ =>
    refine constraint_of_op_ne hr ?_ _
    rw [← hop, encode, opField_packWord]
    decide

/-- Settles O1: the row of the command's opcode selects its word and rebuilds the command, and the
row's constraint is the command's well-formedness. -/
theorem encodeThenDecodeReturnsCommand : Obligations.EncodeThenDecodeReturnsCommand := by
  intro i
  obtain ⟨r, hrow, hmask, hbuild⟩ := encodesItsRow i
  obtain ⟨hr, hop⟩ := mem_table_of_rowOf hrow
  rw [decode_of_row hr hop, constraint_encode hrow, hbuild]
  cases i.wf <;> simp [hmask]

/-! Decoding, then encoding. -/

/-- What a legal word's row says of it. -/
theorem decode_eq_ok_iff {w : Word} {i : Instr} :
    decode w = .ok i ↔ ∃ r ∈ opcodeTable, opField w = r.op ∧ w &&& r.mask = r.pattern ∧
      r.constraint w = true ∧ r.build w = i := by
  constructor
  · intro h
    cases hrow : rowOf (opField w) with
    | none => simp [decode, hrow] at h
    | some r =>
      obtain ⟨hr, hop⟩ := mem_table_of_rowOf hrow
      rw [decode_of_row hr hop] at h
      split_ifs at h with hmask hc
      exact ⟨r, hr, hop, not_not.mp hmask, by simpa using hc, Except.ok.inj h⟩
  · rintro ⟨r, hr, hop, hmask, hc, rfl⟩
    simp [decode_of_row hr hop, hmask, hc]

/-! The fields of a masked word: a fixed field is its pattern, a matrix index, slot or count is read
back from its low bits. -/

section Fields

variable {w : Word}

theorem eq_of_and_F {x y : BitVec 4} (h : x &&& 0xF#4 = y) : y = x :=
  h.symm.trans (BitVec.and_allOnes (x := x))

theorem eq_of_and_FF {x y : BitVec 8} (h : x &&& 0xFF#8 = y) : y = x :=
  h.symm.trans (BitVec.and_allOnes (x := x))

theorem slotImm_slotField (h : immField w &&& 0xFC#8 = 0#8) :
    slotImm (slotField w) = immField w := by
  have hs : w.extractLsb' 0 2 = (immField w).setWidth 2 := by
    apply BitVec.eq_of_toNat_eq; simp [immField, BitVec.extractLsb'_toNat]
  rw [slotField, hs]
  generalize immField w = x at h
  revert x h; decide

theorem setWidth_countField (h : immField w &&& 0x80#8 = 0#8) :
    (countField w).setWidth 8 = immField w := by
  have hs : countField w = (immField w).setWidth 7 := by
    apply BitVec.eq_of_toNat_eq; simp [countField, immField, BitVec.extractLsb'_toNat]
  rw [hs]
  generalize immField w = x at h
  revert x h; decide

/-- A word selected by a row's mask is the packing of any fields that agree with its own, as the
mask grants them to. In every row the opcode and the `z` field are fixed and the rest of the match
is 0. -/
theorem packWord_of_masked (op : BitVec 8) (ma mb mc : BitVec 4) (mi : BitVec 8)
    {ra rb rc : BitVec 4} {imm : Byte}
    (h : w &&& (0xFF#8 ++ ma ++ mb ++ mc ++ 0xF#4 ++ mi : BitVec (8 + 4 + 4 + 4 + 4 + 8)) =
      (op ++ 0#4 ++ 0#4 ++ 0#4 ++ 0#4 ++ 0#8 : BitVec (8 + 4 + 4 + 4 + 4 + 8)))
    (ha : w.extractLsb' 20 4 &&& ma = 0#4 → ra = w.extractLsb' 20 4)
    (hb : w.extractLsb' 16 4 &&& mb = 0#4 → rb = w.extractLsb' 16 4)
    (hc : w.extractLsb' 12 4 &&& mc = 0#4 → rc = w.extractLsb' 12 4)
    (hi : immField w &&& mi = 0#8 → imm = immField w) : packWord op ra rb rc imm = w := by
  obtain ⟨fo, fa, fb, fc, fz, fi⟩ := fields_of_masked h
  rw [eq_of_and_FF fo, ha fa, hb fb, hc fc, hi fi]
  exact packWord_fields (eq_of_and_F fz).symm

/-- A field-register operand's field. -/
theorem fIndex_field (k : Nat) (_ : w.extractLsb' k 4 &&& 0x0#4 = 0#4) :
    fIndex (w.extractLsb' k 4).toFin = w.extractLsb' k 4 := fIndex_extract w k

end Fields

/-- A word that a row selects is the encoding of the command the row builds: the must-be-zero fields
are 0 in both, and each operand is the field it was read from. -/
theorem encode_build {w : Word} {r : Row} (hr : r ∈ opcodeTable) (h : w &&& r.mask = r.pattern) :
    encode (r.build w) = w := by
  have hall : ∀ q ∈ opcodeTable, w &&& q.mask = q.pattern → encode (q.build w) = w := by
    simp only [opcodeTable, List.forall_mem_cons]
    refine ⟨?fadd, ?fsub, ?fmul, ?finv, ?feq, ?fdec, ?fenc, ?mid, ?mmul, ?minv, ?meq, ?mchk, ?mdec,
      ?menc, ?drst, ?dabs, ?dabsb, ?dsum, ?dget, by simp⟩ <;> intro h
    case fadd =>
      exact packWord_of_masked 0x01 0x0 0x0 0x0 0xFF h
        (fIndex_field 20) (fIndex_field 16) (fIndex_field 12) eq_of_and_FF
    case fsub =>
      exact packWord_of_masked 0x02 0x0 0x0 0x0 0xFF h
        (fIndex_field 20) (fIndex_field 16) (fIndex_field 12) eq_of_and_FF
    case fmul =>
      exact packWord_of_masked 0x03 0x0 0x0 0x0 0xFF h
        (fIndex_field 20) (fIndex_field 16) (fIndex_field 12) eq_of_and_FF
    case finv =>
      exact packWord_of_masked 0x04 0x0 0x0 0xF 0xFF h
        (fIndex_field 20) (fIndex_field 16) eq_of_and_F eq_of_and_FF
    case feq =>
      exact packWord_of_masked 0x05 0xF 0x0 0x0 0xFF h
        eq_of_and_F (fIndex_field 16) (fIndex_field 12) eq_of_and_FF
    case fdec =>
      exact packWord_of_masked 0x06 0x0 0xF 0xF 0xFC h
        (fIndex_field 20) eq_of_and_F eq_of_and_F slotImm_slotField
    case fenc =>
      exact packWord_of_masked 0x07 0xF 0x0 0xF 0xFC h
        eq_of_and_F (fIndex_field 16) eq_of_and_F slotImm_slotField
    case mid =>
      exact packWord_of_masked 0x10 0xC 0xF 0xF 0xFF h
        mIndex_extract eq_of_and_F eq_of_and_F eq_of_and_FF
    case mmul =>
      exact packWord_of_masked 0x11 0xC 0xC 0xC 0xFF h
        mIndex_extract mIndex_extract mIndex_extract eq_of_and_FF
    case minv =>
      exact packWord_of_masked 0x12 0xC 0xC 0xF 0xFF h
        mIndex_extract mIndex_extract eq_of_and_F eq_of_and_FF
    case meq =>
      exact packWord_of_masked 0x13 0xF 0xC 0xC 0xFF h
        eq_of_and_F mIndex_extract mIndex_extract eq_of_and_FF
    case mchk =>
      exact packWord_of_masked 0x14 0xF 0xC 0xF 0xFF h
        eq_of_and_F mIndex_extract eq_of_and_F eq_of_and_FF
    case mdec =>
      exact packWord_of_masked 0x15 0xC 0xF 0xF 0xFF h
        mIndex_extract eq_of_and_F eq_of_and_F eq_of_and_FF
    case menc =>
      exact packWord_of_masked 0x16 0xF 0xC 0xF 0xFF h
        eq_of_and_F mIndex_extract eq_of_and_F eq_of_and_FF
    case drst =>
      exact packWord_of_masked 0x20 0xF 0xF 0xF 0xFF h
        eq_of_and_F eq_of_and_F eq_of_and_F eq_of_and_FF
    case dabs =>
      exact packWord_of_masked 0x21 0xF 0xF 0xF 0x00 h
        eq_of_and_F eq_of_and_F eq_of_and_F (fun _ => rfl)
    case dabsb =>
      exact packWord_of_masked 0x22 0xF 0xF 0xF 0x80 h
        eq_of_and_F eq_of_and_F eq_of_and_F setWidth_countField
    case dsum =>
      exact packWord_of_masked 0x23 0xF 0xF 0xF 0xFF h
        eq_of_and_F eq_of_and_F eq_of_and_F eq_of_and_FF
    case dget =>
      exact packWord_of_masked 0x24 0xC 0xF 0xF 0xFF h
        mIndex_extract eq_of_and_F eq_of_and_F eq_of_and_FF
  exact hall r hr h

/-- A row builds a well-formed command from a word that meets its constraint. -/
theorem wf_build {w : Word} {r : Row} (hr : r ∈ opcodeTable) (h : r.constraint w = true) :
    (r.build w).wf = true := by
  have hall : ∀ q ∈ opcodeTable, q.constraint w = true → (q.build w).wf = true := by
    simp only [opcodeTable, List.forall_mem_cons]
    refine ⟨?_, ?_, ?_, ?_, ?_, ?_, ?_, ?_, ?_, ?_, ?_, ?_, ?_, ?_, ?_, ?_, ?dabsb, ?_, ?_, by simp⟩
    case dabsb =>
      intro hc
      have himm : w.toNat % 2 ^ 8 ≤ 64 := by simpa [immField] using of_decide_eq_true hc
      refine decide_eq_true ?_
      simp only [countField, BitVec.extractLsb'_toNat, Nat.shiftRight_zero]
      omega
    all_goals exact fun _ => rfl
  exact hall r hr h

/-- Settles O2: the row that decoded the word selects it, so its fields are the operands'. -/
theorem decodeThenEncodeReturnsWord : Obligations.DecodeThenEncodeReturnsWord := by
  intro w i h
  obtain ⟨r, hr, -, hmask, hc, rfl⟩ := decode_eq_ok_iff.mp h
  exact ⟨encode_build hr hmask, wf_build hr hc⟩

/-! The table. -/

/-- Every row's mask fixes the whole opcode, so a word a row covers has the row's opcode. -/
theorem opField_of_masked {w : Word} {r : Row} (hr : r ∈ opcodeTable)
    (h : w &&& r.mask = r.pattern) : opField w = r.op := by
  have hop : ∀ q ∈ opcodeTable, opField q.mask = 0xFF#8 := by decide
  have hand : opField (w &&& r.mask) = opField w &&& opField r.mask := BitVec.extractLsb'_and
  rw [h, hop r hr] at hand
  exact (eq_of_and_FF hand.symm).symm

theorem covers_iff {w : Word} {r : Row} :
    r.covers w = true ↔ w &&& r.mask = r.pattern ∧ r.constraint w = true := by
  simp [Row.covers]

/-- The rows that cover a word share its opcode, and no two rows do. -/
theorem length_covering_le_one (w : Word) :
    (opcodeTable.filter fun r => r.covers w).length ≤ 1 := by
  have hops : (opcodeTable.filter fun r => r.covers w).map Row.op =
      List.replicate (opcodeTable.filter fun r => r.covers w).length (opField w) := by
    refine List.eq_replicate_iff.mpr ⟨List.length_map _, fun op hop => ?_⟩
    obtain ⟨r, hr, rfl⟩ := List.mem_map.mp hop
    obtain ⟨hmem, hcov⟩ := List.mem_filter.mp hr
    exact (opField_of_masked hmem (covers_iff.mp hcov).1).symm
  have hnodup := opcodes_nodup.sublist
    ((List.filter_sublist (p := fun r : Row => r.covers w)).map Row.op)
  rw [hops] at hnodup
  exact List.nodup_replicate.mp hnodup

/-- Settles O3: a covering row is the row of the word's opcode, which the decoder finds. -/
theorem legalWordsAreCoveredByOneRow : Obligations.LegalWordsAreCoveredByOneRow := by
  refine ⟨fun w => ⟨fun ⟨i, hi⟩ => ?_, fun ⟨r, hr, hcov⟩ => ?_⟩, length_covering_le_one⟩
  · obtain ⟨r, hr, -, hmask, hc, -⟩ := decode_eq_ok_iff.mp hi
    exact ⟨r, hr, covers_iff.mpr ⟨hmask, hc⟩⟩
  · obtain ⟨hmask, hc⟩ := covers_iff.mp hcov
    exact ⟨_, decode_eq_ok_iff.mpr ⟨r, hr, opField_of_masked hr hmask, hmask, hc, rfl⟩⟩

/-- Settles O4, by evaluating the decoder on each word. -/
theorem listedWordsDecode : Obligations.ListedWordsDecode := by
  unfold Obligations.ListedWordsDecode
  decide

end Sys2Proof

/-! PROOFS. The laws of the field (40_field.md R124) and of absorption (42_digest.md R216). -/

namespace Sys2Proof.Machine

/-! The field: each law is that of the field ZMod P. -/

theorem mulF_eq_zero_iff (x y : Fe) : mulF x y = .ofNat 0 ↔ x = .ofNat 0 ∨ y = .ofNat 0 := by
  have : Fact P.Prime := ⟨P_prime⟩
  simp only [← feZ_inj, feZ_mulF, feZ_zero, mul_eq_zero]

theorem mulF_invF_of_ne {x : Fe} (h : x ≠ .ofNat 0) : mulF x (invF x) = .ofNat 1 :=
  mulF_invF fun h0 => h (Fin.ext h0)

/-- Settles O30: the ring laws are identities of ZMod P, a product is 0 only by a factor because P
is prime, and the inverse is Fermat's. -/
theorem fieldLaws : Obligations.FieldLaws := by
  refine ⟨fun x y z => ?_, fun x y => ⟨?_, ?_, ?_, mulF_eq_zero_iff x y⟩,
    fun x => ⟨?_, ?_, ?_, mulF_invF_of_ne⟩⟩
  · simp only [← feZ_inj, feZ_addF, feZ_mulF]
    exact ⟨add_assoc _ _ _, mul_assoc _ _ _, mul_add _ _ _⟩
  all_goals rw [← feZ_inj]; simp only [feZ_addF, feZ_subF, feZ_mulF, feZ_negF, feZ_zero, feZ_one]
  · exact add_comm _ _
  · exact mul_comm _ _
  · exact sub_eq_add_neg _ _
  · exact add_zero _
  · exact mul_one _
  · exact add_neg_cancel _

/-! Absorption. -/

@[simp] theorem absorb_nil (S : Mat) : absorb S [] = S := rfl

@[simp] theorem absorb_cons (S : Mat) (v : Byte) (bs : List Byte) :
    absorb S (v :: bs) = absorb (absorbByte S v) bs := rfl

/-- Streaming equivalence. -/
theorem absorb_append (S : Mat) (x y : List Byte) : absorb S (x ++ y) = absorb (absorb S x) y :=
  List.foldl_append

/-- A byte's absorption is a product on the right. -/
theorem absorbByte_eq_mulM_I2 (S : Mat) (v : Byte) : absorbByte S v = mulM S (absorbByte I2 v) := by
  simp only [absorbByte_eq_mulM, I2_mulM, mulM_assoc]

theorem absorb_eq_mulM_I2 (S : Mat) (bs : List Byte) : absorb S bs = mulM S (absorb I2 bs) := by
  induction bs generalizing S with
  | nil => exact (mulM_I2 S).symm
  | cons v bs ih =>
    calc absorb S (v :: bs) = mulM (mulM S (absorbByte I2 v)) (absorb I2 bs) := by
          rw [absorb_cons, ih, absorbByte_eq_mulM_I2 S]
      _ = mulM S (absorb I2 (v :: bs)) := by rw [mulM_assoc, absorb_cons, ih (absorbByte I2 v)]

theorem absorb_I2_append (x y : List Byte) :
    absorb I2 (x ++ y) = mulM (absorb I2 x) (absorb I2 y) := by
  rw [absorb_append, absorb_eq_mulM_I2]

/-- Both generators have determinant 1. -/
theorem det_generator : ∀ b, det (generator b) = .ofNat 1 := by decide

theorem det_absorbByte {S : Mat} (h : det S = .ofNat 1) (v : Byte) :
    det (absorbByte S v) = .ofNat 1 := by
  have hbit : ∀ {T : Mat} (b : Bool), det T = .ofNat 1 → det (absorbBit T b) = .ofNat 1 :=
    fun b hT => det_mulM_eq_one hT (det_generator b)
  exact hbit _ (hbit _ (hbit _ (hbit _ (hbit _ (hbit _ (hbit _ (hbit _ h)))))))

theorem det_absorb {S : Mat} (h : det S = .ofNat 1) (bs : List Byte) :
    det (absorb S bs) = .ofNat 1 := by
  induction bs generalizing S with
  | nil => exact h
  | cons v bs ih => exact ih (det_absorbByte h v)

/-- Settles O36: absorbing a byte is a product on the right, and the product is associative. -/
theorem absorptionIsHomomorphism : Obligations.AbsorptionIsHomomorphism := fun S x y =>
  ⟨(absorb_append S x y).symm, absorb_I2_append x y, absorb_eq_mulM_I2 S x,
    fun h => det_absorb h x⟩

end Sys2Proof.Machine

/-! SUPPORT and PROOFS. Rules over all commands: what a command's own effect can be once its sources
are written, what it can raise, and which bytes of XB it can see (20_memory.md R67, 30_encoding.md
R101, 60_exceptions.md R260). -/

namespace Sys2Proof.Machine

/-! The effect of a command whose sources are written. -/

/-- The errors a command can raise (60_exceptions.md R260). -/
inductive Raises : Instr → ErrorKind → Prop
  | fdec (fd : FReg) (k : Slot) : Raises (.fdec fd k) .malformedEncoding
  | mdec (md : MReg) : Raises (.mdec md) .malformedEncoding
  | finv (fd fs : FReg) : Raises (.finv fd fs) .invalidArgument
  | minv (md ms : MReg) : Raises (.minv md ms) .invalidArgument
  | dabsb (n : BitVec 7) : countOk n = false → Raises (.dabsb n) .illegalCommand

/-- All that the command i can do to s when its sources are written, as far as the rules over all
commands ask: u is the state it answers. -/
structure Effect (i : Instr) (s u : State) : Prop where
  faults : u.faults = s.faults
  pend : u.pend = none
  ovr : u.ovr = s.ovr
  xb : u.xb = s.xb ∨ ∃ k bs, k + bs.length ≤ 64 ∧ u.xb = s.xb.writeBytes k bs
  digest : u.digest = s.digest ∨ (i = .drst ∧ u.digest = I2) ∨
    ∃ bs, u.digest = absorb s.digest bs ∧ ((∃ v, i = .dabs v) ∨ ∃ n, i = .dabsb n)
  eqFlag : u.eqFlag = s.eqFlag ∨ (∃ a b, i = .feq a b) ∨ (∃ a b, i = .meq a b) ∨ ∃ a, i = .mchk a
  error : (u.errcode = s.errcode ∧ u.errcmd = s.errcmd) ∨
    ∃ n k, Raises i k ∧ u = (s.drew n).raise k (encode i)

section Effects

variable (i : Instr) (s : State)

/-- A command that raises does nothing else. -/
theorem effect_raise {i : Instr} {k : ErrorKind} (n : Nat) (h : Raises i k) :
    Effect i s ((s.drew n).raise k (encode i)) :=
  ⟨rfl, rfl, rfl, .inl rfl, .inl rfl, .inl rfl, .inr ⟨n, k, h, rfl⟩⟩

theorem effect_writeF (n : Nat) (fd : FReg) (v : Fe) :
    Effect i s ((s.drew n).writeF fd v).complete :=
  ⟨rfl, rfl, rfl, .inl rfl, .inl rfl, .inl rfl, .inl ⟨rfl, rfl⟩⟩

theorem effect_writeM (n : Nat) (md : MReg) (X : Mat) :
    Effect i s ((s.drew n).writeM md X).complete :=
  ⟨rfl, rfl, rfl, .inl rfl, .inl rfl, .inl rfl, .inl ⟨rfl, rfl⟩⟩

theorem effect_memWrite {k : Nat} {bs : List Byte} (h : k + bs.length ≤ 64) :
    Effect i s (s.memWrite k bs).complete :=
  ⟨rfl, rfl, rfl, .inr ⟨k, bs, h, rfl⟩, .inl rfl, .inl rfl, .inl ⟨rfl, rfl⟩⟩

theorem effect_setEq {i : Instr}
    (h : (∃ a b, i = .feq a b) ∨ (∃ a b, i = .meq a b) ∨ ∃ a, i = .mchk a) (v : Bool) :
    Effect i s (s.setEq v).complete :=
  ⟨rfl, rfl, rfl, .inl rfl, .inl rfl, .inr h, .inl ⟨rfl, rfl⟩⟩

theorem effect_drst : Effect .drst s (s.setDigest I2).complete :=
  ⟨rfl, rfl, rfl, .inl rfl, .inr (.inl ⟨rfl, rfl⟩), .inl rfl, .inl ⟨rfl, rfl⟩⟩

theorem effect_absorb {i : Instr} (h : (∃ v, i = .dabs v) ∨ ∃ n, i = .dabsb n) (n : Nat)
    (bs : List Byte) : Effect i s ((s.drew n).setDigest (absorb s.digest bs)).complete :=
  ⟨rfl, rfl, rfl, .inl rfl, .inr (.inr ⟨bs, rfl, h⟩), .inl rfl, .inl ⟨rfl, rfl⟩⟩

/-- A slot lies in XB. -/
theorem slotOffset_add_le (k : Slot) : slotOffset k + 16 ≤ 64 := by
  have := k.isLt
  simp only [slotOffset]
  omega

/-- Every command is the check of its sources, and behind it its own effect (30_encoding.md R101).
-/
theorem exec_eq_checkReads :
    ∃ u, exec i s = .next (s.checkReads (encode i) (readsRegs i) u) ∧ Effect i s u := by
  cases i with
  | fadd fd | fsub fd | fmul fd => exact ⟨_, rfl, effect_writeF _ s 0 fd _⟩
  | finv fd fs =>
    refine ⟨_, rfl, ?_⟩
    split
    · exact effect_raise s 0 (.finv fd fs)
    · exact effect_writeF _ s 0 fd _
  | feq a b => exact ⟨_, rfl, effect_setEq s (.inl ⟨a, b, rfl⟩) _⟩
  | fdec fd k =>
    refine ⟨_, rfl, ?_⟩
    split
    · exact effect_writeF _ s 16 fd _
    · exact effect_raise s 16 (.fdec fd k)
  | fenc fs k =>
    exact ⟨_, rfl, effect_memWrite _ s (by rw [length_enc16]; exact slotOffset_add_le k)⟩
  | mid md | mmul md | dget md => exact ⟨_, rfl, effect_writeM _ s 0 md _⟩
  | minv md ms =>
    refine ⟨_, rfl, ?_⟩
    split
    · exact effect_writeM _ s 0 md _
    · exact effect_raise s 0 (.minv md ms)
  | meq a b => exact ⟨_, rfl, effect_setEq s (.inr (.inl ⟨a, b, rfl⟩)) _⟩
  | mchk a => exact ⟨_, rfl, effect_setEq s (.inr (.inr ⟨a, rfl⟩)) _⟩
  | mdec md =>
    refine ⟨_, rfl, ?_⟩
    split
    · exact effect_writeM _ s 64 md _
    · exact effect_raise s 64 (.mdec md)
  | menc | dsum => exact ⟨_, rfl, effect_memWrite _ s (by rw [length_enc64])⟩
  | drst => exact ⟨_, rfl, effect_drst s⟩
  | dabs v =>
    have heff := effect_absorb s (i := .dabs v) (.inl ⟨v, rfl⟩) 0 [v]
    rw [absorb_cons, absorb_nil] at heff
    exact ⟨_, rfl, heff⟩
  | dabsb n =>
    by_cases hn : n.toNat ≤ 64
    · exact ⟨_, exec_dabsb_le s hn, effect_absorb s (.inr ⟨n, rfl⟩) n.toNat _⟩
    · exact ⟨_, exec_dabsb_gt s (not_le.mp hn), effect_raise s 0 (.dabsb n (decide_eq_false hn))⟩

end Effects

/-- All that a command can do: its effect, every source written, or the record of an unwritten
source. -/
theorem exec_effect_or_record (i : Instr) (s : State) :
    ∃ t, exec i s = .next t ∧
      (((∀ r ∈ readsRegs i, s.written r = true) ∧ Effect i s t) ∨
        ∃ r ∈ readsRegs i, s.written r = false ∧ t = s.recordUnwritten r (encode i)) := by
  obtain ⟨u, hu, heff⟩ := exec_eq_checkReads i s
  refine ⟨_, hu, (checkReads_cases s (encode i) (readsRegs i) u).imp_left ?_⟩
  rintro ⟨hw, ht⟩
  exact ⟨hw, by rwa [ht]⟩

/-- Only an ill-formed command raises IllegalCommand. -/
theorem raises_of_wf {i : Instr} {k : ErrorKind} (h : Raises i k) (hwf : i.wf = true) :
    (k = .malformedEncoding ∧ ((∃ fd j, i = .fdec fd j) ∨ ∃ md, i = .mdec md)) ∨
    (k = .invalidArgument ∧ ((∃ fd fs, i = .finv fd fs) ∨ ∃ md ms, i = .minv md ms)) := by
  cases h with
  | fdec fd j => exact .inl ⟨rfl, .inl ⟨fd, j, rfl⟩⟩
  | mdec md => exact .inl ⟨rfl, .inr ⟨md, rfl⟩⟩
  | finv fd fs => exact .inr ⟨rfl, .inl ⟨fd, fs, rfl⟩⟩
  | minv md ms => exact .inr ⟨rfl, .inr ⟨md, ms, rfl⟩⟩
  | dabsb n hn => exact absurd (hn.symm.trans hwf) Bool.false_ne_true

/-- Settles O37: the effect of every other command leaves S and EQ, and a record leaves both. -/
theorem digestAndEqHaveListedWriters : Obligations.DigestAndEqHaveListedWriters := by
  intro i s
  obtain ⟨t, ht, ⟨-, heff⟩ | ⟨r, -, -, rfl⟩⟩ := exec_effect_or_record i s
  · refine ⟨t, ht, ?_, heff.eqFlag⟩
    rcases heff.digest with h | ⟨h, -⟩ | ⟨-, -, h⟩
    · exact .inl h
    · exact .inr (.inl h)
    · exact .inr (.inr h)
  · exact ⟨_, ht, .inl rfl, .inl rfl⟩

/-- Settles O38: a command raises what `Raises` lists, and a well-formed one only by four commands.
-/
theorem onlyFourCommandsRaise : Obligations.OnlyFourCommandsRaise := by
  intro i s hwf
  obtain ⟨t, ht, ⟨-, heff⟩ | ⟨r, -, -, rfl⟩⟩ := exec_effect_or_record i s
  · refine ⟨t, ht, heff.error.imp_right ?_⟩
    rintro ⟨n, k, hk, rfl⟩
    rcases raises_of_wf hk hwf with ⟨rfl, hi⟩ | ⟨rfl, hi⟩
    · exact .inl ⟨rfl, rfl, hi⟩
    · exact .inr ⟨rfl, rfl, hi⟩
  · exact ⟨_, ht, .inl ⟨rfl, rfl⟩⟩

/-- Settles O40: the check of the sources passes to the effect, which records nothing, or stops at
the first unwritten one. -/
theorem unwrittenReadIsRecordedAndStops : Obligations.UnwrittenReadIsRecordedAndStops := by
  intro i s
  obtain ⟨u, hu, heff⟩ := exec_eq_checkReads i s
  refine ⟨fun hw => ⟨u, ?_, heff.faults⟩, fun pre post r hregs hpre hr => ?_⟩
  · rw [hu, checkReads_written s u hw]
  · rw [hu, hregs, checkReads_unwritten s u hpre hr]
    rfl

/-! The bytes of XB a command reaches. -/

/-- Two runs of a command whose sources are written, from states that differ only in XB, where it
reads none of the difference: both write the same bytes at the same place, the ones `writesXB`
lists, and agree on all else. -/
def SameReach (i : Instr) (s : State) (m : Memory) : Prop :=
  ∃ (t : State) (k : Nat) (bs : List Byte), exec i s = .next t ∧ t.xb = s.xb.writeBytes k bs ∧
    exec i { s with xb := m } = .next { t with xb := m.writeBytes k bs } ∧
    ∀ a, writesXB i a = true ↔ k ≤ a ∧ a < k + bs.length

section Reach

variable {i : Instr} {s : State} {m : Memory}

/-- A command that writes no byte of XB. -/
theorem sameReach_of_noWrite {t : State} (hw : ∀ a, writesXB i a = false) (ht : exec i s = .next t)
    (hxb : t.xb = s.xb) (hm : exec i { s with xb := m } = .next { t with xb := m }) :
    SameReach i s m :=
  ⟨t, 0, [], ht, hxb, hm, fun a => by simp [hw a]⟩

/-- A command that checks its sources and then writes no byte of XB. -/
theorem sameReach_of_checkReads {u : State} (hregs : ∀ r ∈ readsRegs i, s.written r = true)
    (hw : ∀ a, writesXB i a = false)
    (ht : exec i s = .next (s.checkReads (encode i) (readsRegs i) u)) (hxb : u.xb = s.xb)
    (hm : exec i { s with xb := m } =
      .next (State.checkReads { s with xb := m } (encode i) (readsRegs i) { u with xb := m })) :
    SameReach i s m := by
  rw [checkReads_written _ _ hregs] at ht
  rw [checkReads_written { s with xb := m } _ hregs] at hm
  exact sameReach_of_noWrite hw ht hxb hm

/-- A command that stores bytes in XB. -/
theorem sameReach_of_memWrite {k : Nat} {bs : List Byte}
    (hw : ∀ a, writesXB i a = true ↔ k ≤ a ∧ a < k + bs.length)
    (ht : exec i s = .next (s.memWrite k bs).complete)
    (hm : exec i { s with xb := m } = .next (State.memWrite { s with xb := m } k bs).complete) :
    SameReach i s m :=
  ⟨_, k, bs, ht, rfl, hm, hw⟩

theorem memRead_withXB {k n : Nat} (h : ∀ a, k ≤ a → a < k + n → m.read a = s.xb.read a) :
    State.memRead { s with xb := m } k n = s.memRead k n :=
  memRead_congr rfl fun j hj => h (k + j) (by omega) (by omega)

end Reach

/-- The table of 20_memory.md R67, command by command. -/
theorem exec_sameReach (i : Instr) (s : State) (m : Memory)
    (hw : ∀ r ∈ readsRegs i, s.written r = true)
    (hm : ∀ a, readsXB i a = true → m.read a = s.xb.read a) : SameReach i s m := by
  cases i with
  | fadd | fsub | fmul | feq | mmul | meq | mchk =>
    exact sameReach_of_checkReads hw (fun _ => rfl) rfl rfl rfl
  | finv fd a =>
    have ha := hw (.f a) (by simp [readsRegs])
    by_cases h0 : (s.readF a).val = 0
    · exact sameReach_of_noWrite (fun _ => rfl) (exec_finv_zero s ha h0) rfl
        (exec_finv_zero { s with xb := m } ha h0)
    · exact sameReach_of_noWrite (fun _ => rfl) (exec_finv_nonzero s ha h0) rfl
        (exec_finv_nonzero { s with xb := m } ha h0)
  | minv md a =>
    have ha := hw (.m a) (by simp [readsRegs])
    cases hdet : detIsOne (s.readM a) with
    | false =>
      exact sameReach_of_noWrite (fun _ => rfl) (exec_minv_other s ha hdet) rfl
        (exec_minv_other { s with xb := m } ha hdet)
    | true =>
      exact sameReach_of_noWrite (fun _ => rfl) (exec_minv_one s ha hdet) rfl
        (exec_minv_one { s with xb := m } ha hdet)
  | fenc a k =>
    have ha := hw (.f a) (by simp [readsRegs])
    exact sameReach_of_memWrite (by simp [writesXB, inSlot]) (exec_fenc s ha)
      (exec_fenc { s with xb := m } ha)
  | mid | drst | dabs | dget => exact sameReach_of_noWrite (fun _ => rfl) rfl rfl rfl
  | fdec fd k =>
    have hbytes : State.slotBytes { s with xb := m } k = s.slotBytes k :=
      memRead_withXB fun a hlo hhi => hm a (by simp [readsXB, inSlot, hlo, hhi])
    cases hv : dec16 (s.slotBytes k) with
    | none =>
      exact sameReach_of_noWrite (fun _ => rfl) (exec_fdec_none s hv) rfl
        (exec_fdec_none { s with xb := m } (by rw [hbytes, hv]))
    | some v =>
      exact sameReach_of_noWrite (fun _ => rfl) (exec_fdec_some s hv) rfl
        (exec_fdec_some { s with xb := m } (by rw [hbytes, hv]))
  | menc a =>
    have ha := hw (.m a) (by simp [readsRegs])
    exact sameReach_of_memWrite (by simp [writesXB]) (exec_menc s ha)
      (exec_menc { s with xb := m } ha)
  | dsum => exact sameReach_of_memWrite (by simp [writesXB]) rfl rfl
  | mdec md =>
    have hbytes : State.bufferBytes { s with xb := m } = s.bufferBytes :=
      memRead_withXB fun a _ ha => hm a (decide_eq_true (by omega))
    cases hX : dec64 s.bufferBytes with
    | none =>
      exact sameReach_of_noWrite (fun _ => rfl) (exec_mdec_none s hX) rfl
        (exec_mdec_none { s with xb := m } (by rw [hbytes, hX]))
    | some X =>
      exact sameReach_of_noWrite (fun _ => rfl) (exec_mdec_some s hX) rfl
        (exec_mdec_some { s with xb := m } (by rw [hbytes, hX]))
  | dabsb n =>
    have hbytes : State.prefixBytes { s with xb := m } n = s.prefixBytes n :=
      memRead_withXB fun a _ ha => hm a (decide_eq_true (by omega))
    by_cases hn : n.toNat ≤ 64
    · refine sameReach_of_noWrite (fun _ => rfl) (exec_dabsb_le s hn) rfl ?_
      rw [exec_dabsb_le _ hn, hbytes]
      rfl
    · exact sameReach_of_noWrite (fun _ => rfl) (exec_dabsb_gt s (not_le.mp hn)) rfl
        (exec_dabsb_gt { s with xb := m } (not_le.mp hn))

/-- Settles O39: outside the bytes both runs write, each XB is as it was; inside, both hold the
bytes written. -/
theorem commandsReachOnlyListedBytes : Obligations.CommandsReachOnlyListedBytes := by
  intro i s m hw hm
  obtain ⟨t, k, bs, ht, hxb, hu, hrange⟩ := exec_sameReach i s m hw hm
  refine ⟨t, _, ht, hu, rfl, rfl, rfl, rfl, rfl, rfl, rfl, fun a ha => ?_, fun a ha => ?_⟩
  · rw [hxb, Memory.read_writeBytes, Memory.read_writeBytes, if_pos ((hrange a).mp ha),
      if_pos ((hrange a).mp ha)]
  · have hout := mt (hrange a).mpr (Bool.eq_false_iff.mp ha)
    rw [hxb, Memory.read_writeBytes, Memory.read_writeBytes, if_neg hout, if_neg hout]
    exact ⟨rfl, rfl⟩

end Sys2Proof.Machine

/-! SUPPORT and PROOFS. Rules over all steps: the core's turn, what each host access and reset can
do, and the machine's invariant (10_state.md R37–R41, 20_memory.md R63, R77, 60_exceptions.md
R262–R276, 70_reset_and_hazards.md R290, R291). -/

namespace Sys2Proof.Machine

/-! The core's turn. -/

theorem execute_of_ok {w : Word} {i : Instr} (s : State) (h : decode w = .ok i) :
    execute w s = exec i s := by
  simp [execute, h]

/-- A word's execution ends with nothing pending. -/
theorem execute_pend {w : Word} {s t : State} (h : execute w s = .next t) : t.pend = none := by
  cases hd : decode w with
  | error e =>
    rw [execute_of_error s hd] at h
    cases h
    rfl
  | ok i =>
    rw [execute_of_ok s hd] at h
    obtain ⟨u, hu, ⟨-, heff⟩ | ⟨r, -, -, rfl⟩⟩ := exec_effect_or_record i s
    · cases h.symm.trans hu
      exact heff.pend
    · cases h.symm.trans hu
      rfl

/-- A word's execution answers a next state. -/
theorem execute_next (w : Word) (s : State) : ∃ t, execute w s = .next t := by
  cases hd : decode w with
  | error e => exact ⟨_, execute_of_error s hd⟩
  | ok i =>
    rw [execute_of_ok s hd]
    exact exec_next s i

/-- The core's turn of a faulted state passes. -/
theorem step_of_faulted {s u : State} (hturn : CoreTurn s u) (hf : s.faults ≠ []) :
    step s = .next u := by
  obtain ⟨hstep, hu⟩ := step_of_coreTurn s hturn
  rw [hstep]
  exact coreStep_faulted u (by rwa [hu, withInputs_faults])

/-- The core's turn of an idle state passes. -/
theorem step_of_idle {s u : State} (hturn : CoreTurn s u) (hp : s.pend = none) :
    step s = .next u := by
  obtain ⟨hstep, hu⟩ := step_of_coreTurn s hturn
  rw [hstep]
  exact coreStep_none u (by rw [hu, withInputs_pend, hp])

/-- Settles O5: the core's turn executes the pending word, which decodes to the command. -/
theorem stepRunsDecodedCommand : Obligations.StepRunsDecodedCommand := by
  intro s w i hf hp hd
  have hrun : ∀ u, CoreTurn s u → step s = exec i u := fun u hturn =>
    (step_of_pending hturn hf hp).trans (execute_of_ok u hd)
  exact ⟨fun hin => hrun s (.inl ⟨hin, rfl⟩), fun rest hin => hrun _ (.inr ⟨rest, hin, rfl⟩)⟩

/-- Settles O7: every word's execution answers a state in which nothing is pending. -/
theorem pendingCommandCompletes : Obligations.PendingCommandCompletes := by
  intro s u hturn
  refine ⟨fun hf hp => ?_, step_of_idle hturn⟩
  obtain ⟨w, hw⟩ := Option.ne_none_iff_exists'.mp hp
  obtain ⟨t, ht⟩ := execute_next w u
  exact ⟨t, (step_of_pending hturn hf hw).trans ht, execute_pend ht⟩

/-- A command that sets ERRCODE raised an error, which is error entry. -/
theorem errorEntry_of_exec {i : Instr} {s t : State} (h : exec i s = .next t) (h0 : s.errcode = 0)
    (ht : t.errcode ≠ 0) : ErrorEntry s t t.errcode (encode i) := by
  obtain ⟨u, hu, ⟨-, heff⟩ | ⟨r, -, -, rfl⟩⟩ := exec_effect_or_record i s <;>
    cases h.symm.trans hu
  · rcases heff.error with ⟨hcode, -⟩ | ⟨n, k, -, rfl⟩
    · exact absurd (hcode.trans h0) ht
    · exact (errorEntry_raise (s.drew n) k (encode i)).of_drew
  · exact absurd h0 ht

/-- Settles O8: an illegal word's error entry records the word, a command's records its encoding,
which is the word. -/
theorem errorEntryIsExact : Obligations.ErrorEntryIsExact := by
  intro s u t w hturn hp h0 hstep ht
  have hu : u.errcode = 0 := by
    obtain ⟨-, hu⟩ := step_of_coreTurn s hturn
    rw [hu, withInputs_errcode, h0]
  by_cases hf : s.faults = []
  · rw [step_of_pending hturn hf hp] at hstep
    cases hd : decode w with
    | error e =>
      rw [execute_of_error u hd] at hstep
      cases hstep
      exact errorEntry_raise u .illegalCommand w
    | ok i =>
      rw [execute_of_ok u hd] at hstep
      obtain ⟨rfl, -⟩ := decodeThenEncodeReturnsWord w i hd
      exact errorEntry_of_exec hstep hu ht
  · cases (step_of_faulted hturn hf).symm.trans hstep
    exact absurd hu ht

/-! Host accesses. -/

/-- A host read changes the draw counter and the value returned, at most. -/
theorem hostRead_eq (t : Target) (s : State) : ∃ n v, hostRead t s = (s.drew n).reply v := by
  cases t with
  | cmd | status | ctrl | errcmd => exact ⟨0, _, rfl⟩
  | xb k => exact ⟨1, _, rfl⟩

theorem not_busy_of_idle {s : State} (h : s.pend = none) : ¬ s.busy = true := fun hb =>
  busy_iff_pend_ne_none.mp hb h

theorem writeXB_of_idle {s : State} (h : s.pend = none) (k : Nat) (b : Byte) :
    writeXB k b s = s.memWrite k [b] := if_neg (not_busy_of_idle h)

theorem writeCtrl_of_srst {s : State} {v : Word} (h : s.pend = none) (hv : v.getLsbD 0 = true) :
    writeCtrl v s = s.resetCore := by
  rw [writeCtrl, if_neg (not_busy_of_idle h), if_pos hv]

/-- A busy core drops each write that could act on it, and sets OVR. -/
theorem hostWrite_of_busy {s : State} {t : Target} (h : s.pend ≠ none) (v : Word)
    (hstatus : t ≠ .status) (herr : t ≠ .errcmd) : hostWrite t v s = s.setOvr := by
  have hb := busy_iff_pend_ne_none.mpr h
  cases t with
  | cmd => exact writeCmd_of_pending v h
  | ctrl => exact if_pos hb
  | xb k => exact if_pos hb
  | status => exact absurd rfl hstatus
  | errcmd => exact absurd rfl herr

/-- All that a host write can do: nothing, an overrun, or the effect of an accepted write. -/
theorem hostWrite_cases (t : Target) (v : Word) (s : State) :
    hostWrite t v s = s ∨ hostWrite t v s = s.setOvr ∨
    (s.pend = none ∧
      ((s.errcode = 0 ∧ hostWrite t v s = s.accept v) ∨
       (t = .ctrl ∧ v.getLsbD 0 = true ∧ hostWrite t v s = s.resetCore) ∨
       (t = .ctrl ∧ v.getLsbD 1 = true ∧ hostWrite t v s = s.clearErrors) ∨
       ∃ k b, k < 64 ∧ hostWrite t v s = s.memWrite k [b])) := by
  by_cases hp : s.pend = none
  · cases t with
    | status | errcmd => exact .inl rfl
    | cmd =>
      by_cases he : s.errcode = 0
      · exact .inr (.inr ⟨hp, .inl ⟨he, writeCmd_of_idle v (not_not.mpr hp) (not_not.mpr he)⟩⟩)
      · exact .inl (writeCmd_of_error v (not_not.mpr hp) he)
    | ctrl =>
      cases h0 : v.getLsbD 0 with
      | true => exact .inr (.inr ⟨hp, .inr (.inl ⟨rfl, rfl, writeCtrl_of_srst hp h0⟩)⟩)
      | false =>
        cases h1 : v.getLsbD 1 with
        | true =>
          exact .inr (.inr ⟨hp, .inr (.inr (.inl ⟨rfl, rfl, writeCtrl_of_clrerr hp h0 h1⟩))⟩)
        | false => exact .inl (writeCtrl_of_neither hp h0 h1)
    | xb k => exact .inr (.inr ⟨hp, .inr (.inr (.inr ⟨k, _, k.isLt, writeXB_of_idle hp k _⟩))⟩)
  · by_cases ht : t = .status ∨ t = .errcmd
    · rcases ht with rfl | rfl <;> exact .inl rfl
    · obtain ⟨h1, h2⟩ := not_or.mp ht
      exact .inr (.inl (hostWrite_of_busy hp v h1 h2))

/-- CTRL is reached by one access alone. -/
theorem access_of_ctrl {bits off : Nat} (h : targetOf bits off = some .ctrl) :
    bits = 32 ∧ off = 0x08 := by
  rcases targetOf_eq_some h with ⟨-, -, hx⟩ | ⟨-, -, hx⟩ | ⟨hb, ho, -⟩ | ⟨-, -, hx⟩ | ⟨-, k, -, hx⟩
  case inr.inr.inl => exact ⟨hb, ho⟩
  all_goals cases hx

/-- What a step can be, with the effect of each: nothing, error entry of an illegal word, a command,
a read, an overrun, an accepted CMD write, a reset, an error return or a byte written. `u` is the
state with the input gone. -/
inductive StepEffect (s u : State) : State → Prop
  | pass : StepEffect s u u
  | illegal (w : Word) : u.faults = [] → u.pend = some w →
      StepEffect s u (u.raise .illegalCommand w)
  | effect (w : Word) (i : Instr) (t : State) : u.faults = [] → u.pend = some w →
      decode w = .ok i → encode i = w → Effect i u t → StepEffect s u t
  | record (w : Word) (i : Instr) (r : RegName) : u.faults = [] → u.pend = some w →
      decode w = .ok i → r ∈ readsRegs i → StepEffect s u (u.recordUnwritten r w)
  | read (n : Nat) (v : ReadValue) : StepEffect s u ((u.drew n).reply v)
  | overrun : StepEffect s u u.setOvr
  | accept (w : Word) : u.pend = none → u.errcode = 0 → StepEffect s u (u.accept w)
  | softReset (v : Word) : u.pend = none → v.getLsbD 0 = true →
      s.inputs = .access (.write 32 0x08 v) :: u.inputs → StepEffect s u u.resetCore
  | hardReset : s.inputs = .hardReset :: u.inputs → StepEffect s u u.resetCore
  | clear (v : Word) : u.pend = none → v.getLsbD 1 = true →
      s.inputs = .access (.write 32 0x08 v) :: u.inputs → StepEffect s u u.clearErrors
  | store (k : Nat) (b : Byte) : u.pend = none → k < 64 → StepEffect s u (u.memWrite k [b])

/-- Every step of the machine is one of these. -/
theorem step_effect {s t : State} (h : step s = .next t) :
    ∃ l, StepEffect s (s.withInputs l) t := by
  obtain ⟨u, hu, hcases⟩ := step_cases s h
  have hus : u = s.withInputs u.inputs := by
    rcases hu with ⟨rfl, -⟩ | ⟨-, -, hu⟩
    · rfl
    · exact hu
  refine ⟨u.inputs, ?_⟩
  rw [← hus]
  rcases hcases with ⟨-, rfl⟩ | ⟨hf, w, e, hp, -, rfl⟩ | ⟨hf, w, i, hp, hd, hex⟩ |
    ⟨bits, off, tgt, -, -, rfl⟩ | ⟨bits, off, v, tgt, hin, ht, rfl⟩ | ⟨hin, rfl⟩
  · exact .pass
  · exact .illegal w hf hp
  · obtain ⟨hw, -⟩ := decodeThenEncodeReturnsWord w i hd
    obtain ⟨t', ht', ⟨-, heff⟩ | ⟨r, hr, -, rfl⟩⟩ := exec_effect_or_record i u <;>
      cases hex.symm.trans ht'
    · exact .effect w i _ hf hp hd hw heff
    · rw [hw]
      exact .record w i r hf hp hd hr
  · obtain ⟨n, v, hv⟩ := hostRead_eq tgt u
    rw [hv]
    exact .read n v
  · rcases hostWrite_cases tgt v u with he | he | ⟨hp, ⟨h0, he⟩ | ⟨rfl, hv, he⟩ | ⟨rfl, hv, he⟩ |
      ⟨k, b, hk, he⟩⟩ <;> rw [he]
    · exact .pass
    · exact .overrun
    · exact .accept v hp h0
    · obtain ⟨rfl, rfl⟩ := access_of_ctrl ht
      exact .softReset v hp hv hin
    · obtain ⟨rfl, rfl⟩ := access_of_ctrl ht
      exact .clear v hp hv hin
    · exact .store k b hp hk
  · exact .hardReset hin

/-! The invariant. -/

theorem detOne_iff_det (X : Mat) : DetOne X ↔ det X = .ofNat 1 := (det_eq_one_iff X).symm

theorem detOne_I2 : DetOne I2 := by
  unfold DetOne
  decide

theorem ErrorKind.code_bounds (e : ErrorKind) : e.code.toNat ≤ 3 ∧ e.code ≠ 0 := by
  cases e <;> decide

/-- Error entry keeps the invariant, as nothing is pending behind it. -/
theorem inv_raise {s : State} (h : Inv s) (e : ErrorKind) (w : Word) : Inv (s.raise e w) where
  xb := h.xb
  code := e.code_bounds.1
  errcmd he := absurd he e.code_bounds.2
  latch hp := absurd rfl hp
  digest := h.digest
  records := h.records
  one := h.one

theorem inv_drew {s : State} (h : Inv s) (n : Nat) : Inv (s.drew n) :=
  ⟨h.xb, h.code, h.errcmd, h.latch, h.digest, h.records, h.one⟩

theorem inv_effect {i : Instr} {s t : State} (h : Inv s) (heff : Effect i s t) : Inv t := by
  rcases heff.error with ⟨hcode, hcmd⟩ | ⟨n, k, -, rfl⟩
  · refine ⟨?_, hcode ▸ h.code, fun he => ?_, fun hp => absurd heff.pend hp, ?_,
      heff.faults ▸ h.records, heff.faults ▸ h.one⟩
    · rcases heff.xb with hxb | ⟨k, bs, hk, hxb⟩
      · exact hxb ▸ h.xb
      · exact hxb ▸ Memory.wf_writeBytes h.xb hk
    · rw [hcmd]
      exact h.errcmd (hcode ▸ he)
    · rcases heff.digest with hd | ⟨-, hd⟩ | ⟨bs, hd, -⟩ <;> rw [hd]
      · exact h.digest
      · exact detOne_I2
      · exact (detOne_iff_det _).mpr (det_absorb ((detOne_iff_det _).mp h.digest) bs)
  · exact inv_raise (inv_drew h n) k _

/-- The first record of an unfaulted state. -/
theorem inv_record {s : State} {w : Word} {i : Instr} {r : RegName} (h : Inv s) (hf : s.faults = [])
    (hd : decode w = .ok i) (hr : r ∈ readsRegs i) : Inv (s.recordUnwritten r w) where
  xb := h.xb
  code := h.code
  errcmd := h.errcmd
  latch hp := absurd rfl hp
  digest := h.digest
  records q hq := by
    rw [recordUnwritten_faults, hf, List.nil_append, List.mem_singleton] at hq
    exact hq ▸ ⟨i, hd, hr⟩
  one := by simp [hf]

theorem inv_resetCore {s : State} (h : Inv s) : Inv s.resetCore where
  xb := Memory.wf_nil
  code := Nat.zero_le 3
  errcmd _ := rfl
  latch _ := rfl
  digest := detOne_I2
  records := by rw [resetCore_faults]; exact h.records
  one := by rw [resetCore_faults]; exact h.one

/-- Settles O54, one kind of step after the other. -/
theorem stepKeepsInvariant : Obligations.StepKeepsInvariant := by
  intro s t hs hstep
  obtain ⟨l, heff⟩ := step_effect hstep
  have h : Inv (s.withInputs l) :=
    ⟨hs.xb, hs.code, hs.errcmd, hs.latch, hs.digest, hs.records, hs.one⟩
  cases heff with
  | pass => exact h
  | illegal w => exact inv_raise h _ w
  | effect w i _ _ _ _ _ heff => exact inv_effect h heff
  | record w i r hf _ hd hr => exact inv_record h hf hd hr
  | read n v => exact ⟨h.xb, h.code, h.errcmd, h.latch, h.digest, h.records, h.one⟩
  | overrun => exact ⟨h.xb, h.code, h.errcmd, h.latch, h.digest, h.records, h.one⟩
  | accept w _ h0 => exact ⟨h.xb, h.code, h.errcmd, fun _ => h0, h.digest, h.records, h.one⟩
  | softReset | hardReset => exact inv_resetCore h
  | clear =>
    exact ⟨h.xb, Nat.zero_le 3, fun _ => rfl, fun _ => rfl, h.digest, h.records, h.one⟩
  | store k b _ hk =>
    exact ⟨Memory.wf_writeBytes h.xb hk, h.code, h.errcmd, h.latch, h.digest, h.records, h.one⟩

/-- Settles O55: nothing is written, latched, pending or recorded, and S is I2. -/
theorem resetMeetsInvariant : Obligations.ResetMeetsInvariant :=
  ⟨Memory.reset_wf, Nat.zero_le 3, fun _ => rfl, fun _ => rfl, detOne_I2, nofun, Nat.zero_le 1⟩

/-! Faulted states, latched errors and the overrun flag. -/

/-- No step erases a record. -/
theorem faults_prefix_of_stepEffect {s u t : State} (h : StepEffect s u t) :
    u.faults <+: t.faults := by
  cases h with
  | effect _ _ _ _ _ _ _ heff => rw [heff.faults]
  | record => exact List.prefix_append _ _
  | softReset | hardReset => rw [resetCore_faults]
  | _ => exact List.prefix_refl _

/-- Settles O41: a faulted core's turn passes, and each kind of step keeps the records. -/
theorem faultedStateTakesNoCoreStep : Obligations.FaultedStateTakesNoCoreStep := by
  refine ⟨fun s u => step_of_faulted, fun s hf => ?_, fun s t hstep => ?_⟩
  · simp [State.final, (faulted_eq_true s).mpr hf]
  · obtain ⟨l, heff⟩ := step_effect hstep
    exact faults_prefix_of_stepEffect (u := s.withInputs l) heff

/-- Settles O53: with nothing pending no command runs, and a latched error discards CMD writes. -/
theorem firstErrorStaysLatched : Obligations.FirstErrorStaysLatched := by
  intro s t hp he hstep
  obtain ⟨l, heff⟩ := step_effect hstep
  have hnone : ∀ w, (s.withInputs l).pend ≠ some w := by simp [hp]
  cases heff with
  | pass | read | overrun | store => exact .inl ⟨rfl, rfl, hp, rfl, rfl, rfl, rfl⟩
  | illegal w _ hw => exact absurd hw (hnone w)
  | effect w i _ _ hw => exact absurd hw (hnone w)
  | record w i r _ hw => exact absurd hw (hnone w)
  | accept w _ h0 => exact absurd h0 he
  | softReset v _ hv hin => exact .inr (.inr ⟨v, l, hin, .inl hv⟩)
  | hardReset hin => exact .inr (.inl ⟨l, hin⟩)
  | clear v _ hv hin => exact .inr (.inr ⟨v, l, hin, .inr hv⟩)

/-- No step clears OVR but a reset or an error return. -/
theorem ovr_of_stepEffect {s t : State} {l : List Input} (h : StepEffect s (s.withInputs l) t)
    (hovr : s.ovr = true) : t.ovr = true ∨ (∃ rest, s.inputs = .hardReset :: rest) ∨
      ∃ v rest, s.inputs = .access (.write 32 0x08 v) :: rest ∧ s.pend = none ∧
        (v.getLsbD 0 = true ∨ v.getLsbD 1 = true) := by
  cases h with
  | effect _ _ _ _ _ _ _ heff => exact .inl (heff.ovr.trans hovr)
  | overrun => exact .inl rfl
  | softReset v hp hv hin => exact .inr (.inr ⟨v, l, hin, hp, .inl hv⟩)
  | hardReset hin => exact .inr (.inl ⟨l, hin⟩)
  | clear v hp hv hin => exact .inr (.inr ⟨v, l, hin, hp, .inr hv⟩)
  | _ => exact .inl hovr

/-- Settles O44: a busy core drops the write, and the steps that clear OVR are the listed ones. -/
theorem busyWritesAreDroppedAndOverrunSticks :
    Obligations.BusyWritesAreDroppedAndOverrunSticks := by
  refine ⟨fun s bits offset v rest hp hin hacc => ?_, fun s t hstep hovr => ?_⟩
  · have hbusy : ∀ {t : Target}, targetOf bits offset = some t → t ≠ .status → t ≠ .errcmd →
        step s = .next { s with inputs := rest, ovr := true } := fun ht h1 h2 =>
      (step_write_of_target hin ht).trans
        (congrArg _ (hostWrite_of_busy (s := s.withInputs rest) hp v h1 h2))
    rcases hacc with ⟨rfl, rfl | rfl⟩ | ⟨rfl, k, hk, rfl⟩
    · exact hbusy targetOf_cmd (by decide) (by decide)
    · exact hbusy targetOf_ctrl (by decide) (by decide)
    · exact hbusy (targetOf_xb hk) nofun nofun
  · obtain ⟨l, heff⟩ := step_effect hstep
    exact ovr_of_stepEffect heff hovr

/-! Reads and writes of the window. -/

theorem hostWrite_xb_of_idle {s : State} (hp : s.pend = none) (k : Fin 64) (v : Word) :
    hostWrite (.xb k) v s = s.memWrite k.val [v.setWidth 8] := writeXB_of_idle hp _ _

/-- An XB write while idle stores the low byte of its value. -/
theorem step_xbWrite_of_idle {s : State} {k : Nat} {v : Word} {rest : List Input}
    (hp : s.pend = none) (hk : k < 64)
    (hin : s.inputs = .access (.write 8 (0x40 + k) v) :: rest) :
    step s = .next ((s.withInputs rest).memWrite k [v.setWidth 8]) :=
  (step_write_of_target hin (targetOf_xb hk)).trans
    (congrArg _ (hostWrite_xb_of_idle (s := s.withInputs rest) hp ⟨k, hk⟩ v))

/-- A byte stored twice is stored once. -/
theorem memWrite_memWrite_byte (s : State) (k : Nat) (b : Byte) :
    (s.memWrite k [b]).memWrite k [b] = s.memWrite k [b] := by
  simp only [State.memWrite, Memory.writeBytes, Memory.write_write]

/-- Settles O45: a read only draws and replies, STATUS and ERRCMD ignore writes, and a byte stored
twice is stored once. -/
theorem readsHaveNoSideEffect : Obligations.ReadsHaveNoSideEffect := by
  refine ⟨fun s bits offset rest hin hdef => ?_, fun s offset v rest hin hoff => ?_,
    fun s k v rest hp hk hin => ?_⟩
  · rcases hdef with ⟨rfl, rfl | rfl | rfl | rfl⟩ | ⟨rfl, k, hk, rfl⟩
    · exact ⟨_, _, step_read_of_target hin targetOf_cmd, rfl, by simp, by simp⟩
    · exact ⟨_, _, step_read_of_target hin targetOf_status, rfl, by simp, by simp⟩
    · exact ⟨_, _, step_read_of_target hin targetOf_ctrl, rfl, by simp, by simp⟩
    · exact ⟨_, _, step_read_of_target hin targetOf_errcmd, rfl, by simp, by simp⟩
    · exact ⟨_, _, step_read_of_target hin (targetOf_xb hk), rfl, by omega, by omega⟩
  · rcases hoff with rfl | rfl
    · exact step_write_of_target hin targetOf_status
    · exact step_write_of_target hin targetOf_errcmd
  · refine ⟨_, step_xbWrite_of_idle hp hk hin, ?_⟩
    have hsecond := step_xbWrite_of_idle (v := v) (rest := rest)
      (s := (s.withInputs (.access (.write 8 (0x40 + k) v) :: rest)).memWrite k [v.setWidth 8])
      hp hk rfl
    exact hsecond.trans (congrArg _ (memWrite_memWrite_byte (s.withInputs rest) k _))

/-- What a reset leaves (70_reset_and_hazards.md R291). -/
theorem resetCore_table (s : State) : s.resetCore.digest = .ofNats 1 0 0 1 ∧
    (∀ r : RegName, s.resetCore.written r = false) ∧ (∀ a, s.resetCore.xb.read a = none) ∧
    s.resetCore.pend = none ∧ s.resetCore.eqFlag = false ∧ s.resetCore.ovr = false ∧
    s.resetCore.errcode = 0 ∧ s.resetCore.errcmd = 0 ∧ s.resetCore.faults = s.faults ∧
    s.resetCore.inputs = s.inputs :=
  ⟨rfl, written_resetCore s, fun _ => rfl, rfl, rfl, rfl, rfl, rfl, resetCore_faults s,
    resetCore_inputs s⟩

/-- Settles O51: both resets are `resetCore`. -/
theorem resetsLeaveResetState : Obligations.ResetsLeaveResetState := by
  intro s x rest hin hx
  refine ⟨(s.withInputs rest).resetCore, ?_, resetCore_table (s.withInputs rest)⟩
  rcases hx with rfl | ⟨hp, v, hv, rfl⟩
  · exact step_of_cons s hin
  · exact (step_write_of_target hin targetOf_ctrl).trans
      (congrArg _ (writeCtrl_of_srst (s := s.withInputs rest) hp hv))

/-- Settles O42: byte i of a read is XB's byte or a draw. -/
theorem memReadGivesBytesOrDraws : Obligations.MemReadGivesBytesOrDraws := fun s k n =>
  ⟨length_memRead s k n, fun i hi => ⟨fun b hb => by rw [getElem?_memRead s hi, hb]; rfl,
    fun hnone => by rw [getElem?_memRead s hi, hnone]; rfl⟩⟩

/-- STATUS as a number (10_state.md R37). -/
theorem toNat_statusWord (s : State) : s.statusWord.toNat =
    s.errcode.toNat * 16 + s.ovr.toNat * 4 + s.eqFlag.toNat * 2 + s.busy.toNat := by
  have hz24 : (0 : BitVec 24).toNat = 0 := rfl
  have hz1 : (0 : BitVec 1).toNat = 0 := rfl
  simp only [State.statusWord, toNat_append_eq, BitVec.toNat_ofBool, hz24, hz1]
  omega

section Status

variable (s : State)

/-- The flags of STATUS, bits 0 to 2, and the reserved bit 3. -/
theorem getLsbD_statusWord : s.statusWord.getLsbD 0 = s.busy ∧ s.statusWord.getLsbD 1 = s.eqFlag ∧
    s.statusWord.getLsbD 2 = s.ovr ∧ s.statusWord.getLsbD 3 = false := by
  simp only [State.statusWord, BitVec.getLsbD_append]
  simp

/-- ERRCODE is bits 7:4 of STATUS. -/
theorem extract_statusWord_errcode : s.statusWord.extractLsb' 4 4 = s.errcode := by
  have hb := s.busy.toNat_le
  have he := s.eqFlag.toNat_le
  have ho := s.ovr.toNat_le
  apply BitVec.eq_of_toNat_eq
  rw [BitVec.extractLsb'_toNat, toNat_statusWord, Nat.shiftRight_eq_div_pow]
  omega

/-- Bits 31:8 of STATUS are 0. -/
theorem extract_statusWord_high : s.statusWord.extractLsb' 8 24 = 0 := by
  have hb := s.busy.toNat_le
  have he := s.eqFlag.toNat_le
  have ho := s.ovr.toNat_le
  apply BitVec.eq_of_toNat_eq
  rw [BitVec.extractLsb'_toNat, toNat_statusWord, Nat.shiftRight_eq_div_pow]
  change _ = 0
  omega

end Status

/-- Settles O46, field by field. -/
theorem statusWordFields : Obligations.StatusWordFields := by
  intro s rest hin
  obtain ⟨hbusy, heq, hovr, hzero⟩ := getLsbD_statusWord s
  refine ⟨_, s.statusWord, step_read_of_target hin targetOf_status, rfl, ?_, heq, hovr, hzero,
    extract_statusWord_errcode s, extract_statusWord_high s⟩
  rw [hbusy, busy_iff_pend_ne_none]

/-- A host read of XB while busy is a draw. -/
theorem hostByte_of_busy {s : State} (h : s.pend ≠ none) (k : Nat) :
    s.hostByte k = Config.freeByte s.draws := if_pos (busy_iff_pend_ne_none.mpr h)

/-- A host read of XB while idle is XB's byte, or a draw where nothing has written. -/
theorem hostByte_of_idle {s : State} (h : s.pend = none) (k : Nat) :
    s.hostByte k = (s.xb.read k).getD (Config.freeByte s.draws) := if_neg (not_busy_of_idle h)

/-- Settles O47: the byte returned is `hostByte`. -/
theorem xbReadGivesByteOrDraw : Obligations.XbReadGivesByteOrDraw := by
  intro s k rest hk hin
  have hreply : ∀ {b}, s.hostByte k = b →
      (hostRead (.xb ⟨k, hk⟩) (s.withInputs rest)).readData = some (.byte b) :=
    fun h => congrArg (fun b => some (ReadValue.byte b)) h
  refine ⟨_, step_read_of_target hin (targetOf_xb hk), fun hp => hreply (hostByte_of_busy hp k),
    fun hp b hb => hreply ?_, fun hp hnone => hreply ?_, rfl⟩
  · rw [hostByte_of_idle hp, hb, Option.getD_some]
  · rw [hostByte_of_idle hp, hnone, Option.getD_none]

/-- Settles O48: the byte is written to XB alone. -/
theorem xbWriteStoresOneByte : Obligations.XbWriteStoresOneByte := by
  intro s k v rest hk hp hin
  have hlow : v.setWidth 8 = v.extractLsb' 0 8 := by
    apply BitVec.eq_of_toNat_eq; simp
  refine ⟨_, step_xbWrite_of_idle hp hk hin, ?_, fun a ha => ?_, fun h => ?_, rfl⟩
  · rw [← hlow]
    exact Memory.read_write_self s.xb k _
  · exact Memory.read_write_of_ne s.xb k a _ ha
  · exact Memory.wf_write _ h hk

/-- Settles O52, field by field. -/
theorem resetStateHoldsTableValues : Obligations.ResetStateHoldsTableValues := by
  refine ⟨rfl, fun r => ?_, fun _ => rfl, rfl, rfl, rfl, rfl, rfl, rfl, by decide⟩
  cases r <;> simp [State.written, State.reset]

/-- Settles O56: a platform's step sets one entry of the vector. -/
theorem instancesNeverInteract : Obligations.InstancesNeverInteract := by
  intro n p q k h
  unfold Instances.stepAt at h
  split at h
  · next t ht =>
    cases h
    refine ⟨by simpa using ht, fun j hj => ?_⟩
    simp [Fin.val_ne_of_ne (Ne.symm hj)]
  · cases h
  · cases h

end Sys2Proof.Machine

/-! SUPPORT and PROOFS. The host procedures (43_host_combinators.md R240–R246): when a procedure
leads to a result or fails with an error, the accesses and commands they are made of, then each
procedure. -/

namespace Sys2Proof.Machine

/-! Results of a procedure, and of one procedure after another. -/

/-- The procedure returns v, in a state with the property Q. -/
def Leads {α : Type} (p : Proc α) (s : State) (v : α) (Q : State → Prop) : Prop :=
  ∃ t, p s = .ok v t ∧ Q t

/-- The procedure returns the error e and leaves the core ready again. -/
def Fails {α : Type} (p : Proc α) (s : State) (e : ErrorKind) : Prop :=
  ∃ t, p s = .error e t ∧ Ready t

section Sequence

variable {α β : Type} {p : Proc α} {q : α → Proc β} {s : State} {v : α} {w : β} {e : ErrorKind}
  {Q R : State → Prop}

theorem Leads.bind (hp : Leads p s v Q) (hq : ∀ t, Q t → Leads (q v) t w R) :
    Leads (p.bind q) s w R := by
  obtain ⟨t, ht, hQ⟩ := hp
  obtain ⟨u, hu, hR⟩ := hq t hQ
  exact ⟨u, by rw [Proc.bind, ht]; exact hu, hR⟩

/-- The first procedure's value is not used. -/
theorem Leads.andThen {q : Proc β} (hp : Leads p s v Q) (hq : ∀ t, Q t → Leads q t w R) :
    Leads (p.andThen q) s w R := hp.bind (q := fun _ => q) hq

theorem Leads.bind_fails (hp : Leads p s v Q) (hq : ∀ t, Q t → Fails (q v) t e) :
    Fails (p.bind q) s e := by
  obtain ⟨t, ht, hQ⟩ := hp
  obtain ⟨u, hu, hr⟩ := hq t hQ
  exact ⟨u, by rw [Proc.bind, ht]; exact hu, hr⟩

theorem Leads.andThen_fails {q : Proc β} (hp : Leads p s v Q) (hq : ∀ t, Q t → Fails q t e) :
    Fails (p.andThen q) s e := hp.bind_fails (q := fun _ => q) hq

/-- An error ends the sequence. -/
theorem Fails.bind (hp : Fails p s e) : Fails (p.bind q) s e := by
  obtain ⟨t, ht, hr⟩ := hp
  exact ⟨t, by rw [Proc.bind, ht], hr⟩

theorem Fails.andThen {q : Proc β} (hp : Fails p s e) : Fails (p.andThen q) s e :=
  hp.bind (q := fun _ => q)

theorem leads_give (hQ : Q s) : Leads (Proc.give v) s v Q := ⟨s, rfl, hQ⟩

end Sequence

/-! Accesses. -/

section Accesses

variable {s : State}

/-- An input that takes effect next leaves the inputs behind it. -/
theorem act_of_next {x : Input} {t : State} (h : takeInput x s = .next t) : act x s = .ok () t := by
  have hstep : step (s.withInputs (x :: s.inputs)) = .next t := (step_of_cons _ rfl).trans h
  rw [act, hstep]

theorem hostPut_of_target {bits off : Nat} {v : Word} {t : Target}
    (h : targetOf bits off = some t) :
    hostPut bits off v s = .ok () (hostWrite t v s) :=
  act_of_next (by simp [takeInput, hostAccess, h])

theorem hostGet_of_target {bits off : Nat} {t : Target} (h : targetOf bits off = some t) :
    hostGet bits off s = .ok (hostRead t s).readData (hostRead t s) := by
  have hact : act (.access (.read bits off)) s = .ok () (hostRead t s) :=
    act_of_next (by simp [takeInput, hostAccess, h])
  rw [hostGet, Proc.andThen, Proc.bind, hact]

/-- A STATUS read returns the STATUS word and changes nothing but the value returned. -/
theorem hostGet_status :
    hostGet 32 0x04 s = .ok (some (.word s.statusWord)) (s.reply (.word s.statusWord)) :=
  hostGet_of_target targetOf_status

/-- A ready state is ready again once a command that raised nothing has completed. -/
theorem Ready.of_frame (h : Ready s) {t : State} (hp : t.pend = none) (he : t.errcode = s.errcode)
    (hf : t.faults = s.faults) (hin : t.inputs = s.inputs) : Ready t := by
  obtain ⟨-, he0, hf0, hin0⟩ := h
  exact ⟨hp, he.trans he0, hf.trans hf0, hin.trans hin0⟩

/-- POLL ends once the core's turn leaves nothing pending. -/
theorem poll_of_coreStep {t : State} (h : coreStep s = .next t) (hp : t.pend = none) :
    poll s = .ok () (t.reply (.word t.statusWord)) := by
  have hact : act .coreTurn s = .ok () t := act_of_next h
  have hbusy : busyBit (some (.word t.statusWord)) = false := by
    rw [busyBit, (getLsbD_statusWord t).1]
    exact Bool.eq_false_iff.mpr (not_busy_of_idle hp)
  simp only [poll, Proc.andThen, Proc.bind, hact, hostGet_status, hbusy, Bool.false_eq_true,
    if_false, Proc.give]

/-- A well-formed command written to CMD is executed by the POLL behind it. -/
theorem issue_of_exec {i : Instr} {t : State} (h : Ready s) (hwf : i.wf = true)
    (hex : exec i (s.accept (encode i)) = .next t) :
    issue i s = .ok () (t.reply (.word t.statusWord)) := by
  obtain ⟨hp, he, hf, -⟩ := h
  have hput : hostPut 32 0x00 (encode i) s = .ok () (s.accept (encode i)) := by
    rw [hostPut_of_target targetOf_cmd, hostWrite, writeCmd_of_idle _ (not_not.mpr hp)
      (not_not.mpr he)]
  have hdec : decode (encode i) = .ok i := by
    rw [encodeThenDecodeReturnsCommand i, if_pos hwf]
  have hrun : execute (encode i) (s.accept (encode i)) = .next t :=
    (execute_of_ok _ hdec).trans hex
  have hpoll := poll_of_coreStep ((coreStep_some (s.accept (encode i)) hf rfl).trans hrun)
    (execute_pend hrun)
  rw [issue, Proc.andThen, Proc.bind, hput]
  exact hpoll

/-- `check` passes when no error is latched. -/
theorem check_of_noError (h : s.errcode = 0) :
    check s = .ok () (s.reply (.word s.statusWord)) := by
  have hfield : errField (some (.word s.statusWord)) = 0 := (extract_statusWord_errcode s).trans h
  simp only [check, Proc.bind, hostGet_status, hfield, if_true, Proc.give]

/-- `check` clears a latched error and returns its kind. -/
theorem check_fails {e : ErrorKind} (hp : s.pend = none) (he : s.errcode = e.code)
    (hf : s.faults = []) (hin : s.inputs = []) : Fails check s e := by
  have hfield : errField (some (.word s.statusWord)) = e.code :=
    (extract_statusWord_errcode s).trans he
  have hkind : kindOf e.code = e := by cases e <;> rfl
  have hput : hostPut 32 0x08 2 (s.reply (.word s.statusWord)) =
      .ok () (s.reply (.word s.statusWord)).clearErrors := by
    rw [hostPut_of_target targetOf_ctrl, hostWrite,
      writeCtrl_of_clrerr (s := s.reply _) (v := 2) hp (by decide) (by decide)]
  refine ⟨(s.reply (.word s.statusWord)).clearErrors, ?_, hp, rfl, hf, hin⟩
  simp only [check, Proc.andThen, Proc.bind, hostGet_status, hfield, e.code_bounds.2, if_false,
    hput, hkind]

end Accesses

/-! Loading and fetching XB. -/

/-- The memory holds these bytes from address k on. -/
def HoldsBytes (m : Memory) (k : Nat) (bs : List Byte) : Prop :=
  ∀ i (hi : i < bs.length), m.read (k + i) = some bs[i]

theorem holdsBytes_writeBytes (m : Memory) (k : Nat) (bs : List Byte) :
    HoldsBytes (m.writeBytes k bs) k bs := by
  intro i hi
  rw [Memory.read_writeBytes, if_pos (by omega), Nat.add_sub_cancel_left,
    List.getElem?_eq_getElem hi]

theorem holdsBytes_cons {m : Memory} {k : Nat} {b : Byte} {bs : List Byte}
    (h : HoldsBytes m k (b :: bs)) : m.read k = some b ∧ HoldsBytes m (k + 1) bs := by
  refine ⟨h 0 (by simp), fun i hi => ?_⟩
  have htail := h (i + 1) (by simpa using hi)
  rwa [show k + (i + 1) = k + 1 + i by omega, List.getElem_cons_succ] at htail

/-- Bytes loaded one by one are a block write. -/
theorem loadXB_eq {s : State} (hp : s.pend = none) (bs : List Byte) {k : Nat}
    (hk : k + bs.length ≤ 64) : loadXB bs k s = .ok () (s.memWrite k bs) := by
  induction bs generalizing s k with
  | nil => rfl
  | cons b bs ih =>
    rw [List.length_cons] at hk
    have hbyte : (b.setWidth 32).setWidth 8 = b := by
      apply BitVec.eq_of_toNat_eq
      simp
    have hput : hostPut 8 (0x40 + k) (b.setWidth 32) s = .ok () (s.memWrite k [b]) := by
      rw [hostPut_of_target (targetOf_xb (show k < 64 by omega)), hostWrite_xb_of_idle hp, hbyte]
    rw [loadXB, Proc.andThen, Proc.bind, hput]
    exact ih (s := s.memWrite k [b]) hp (by omega)

/-- Bytes fetched one by one are the ones XB holds. -/
theorem fetchXB_leads {s : State} (h : Ready s) {bs : List Byte} {k : Nat} (hk : k + bs.length ≤ 64)
    (hbs : HoldsBytes s.xb k bs) : Leads (fetchXB bs.length k) s bs Ready := by
  induction bs generalizing s k with
  | nil => exact leads_give h
  | cons b bs ih =>
    rw [List.length_cons] at hk
    obtain ⟨hb, htail⟩ := holdsBytes_cons hbs
    have hget : Leads (hostGet 8 (0x40 + k)) s (some (.byte b)) fun t => Ready t ∧ t.xb = s.xb := by
      have hbyte : s.hostByte k = b := by rw [hostByte_of_idle h.1, hb, Option.getD_some]
      refine ⟨(s.drew 1).reply (.byte b), ?_, h, rfl⟩
      rw [hostGet_of_target (targetOf_xb (show k < 64 by omega)), hostRead, hbyte, reply_readData]
    refine hget.bind fun t ⟨ht, hxb⟩ => ?_
    exact (ih ht (by omega) (hxb ▸ htail)).bind fun u hu => leads_give hu

/-! Commands of a procedure. -/

section Commands

variable {s : State} (h : Ready s)

include h

/-- A command that writes M[md]. -/
theorem issue_writeM {i : Instr} {md : MReg} {X : Mat} {n : Nat} (hwf : i.wf = true)
    (hex : exec i (s.accept (encode i)) =
      .next (((s.accept (encode i)).drew n).writeM md X).complete) :
    Leads (issue i) s () fun t => Ready t ∧ t.m = s.m.set md ⟨X, true⟩ :=
  ⟨_, issue_of_exec h hwf hex, h.of_frame rfl rfl rfl rfl, rfl⟩

/-- A command that writes S. -/
theorem issue_setDigest {i : Instr} {X : Mat} {n : Nat} (hwf : i.wf = true)
    (hex : exec i (s.accept (encode i)) =
      .next (((s.accept (encode i)).drew n).setDigest X).complete) :
    Leads (issue i) s () fun t => Ready t ∧ t.digest = X :=
  ⟨_, issue_of_exec h hwf hex, h.of_frame rfl rfl rfl rfl, rfl⟩

/-- A command that stores bytes in XB. -/
theorem issue_memWrite {i : Instr} {k : Nat} {bs : List Byte} (hwf : i.wf = true)
    (hex : exec i (s.accept (encode i)) =
      .next ((s.accept (encode i)).memWrite k bs).complete) :
    Leads (issue i) s () fun t => Ready t ∧ HoldsBytes t.xb k bs :=
  ⟨_, issue_of_exec h hwf hex, h.of_frame rfl rfl rfl rfl, holdsBytes_writeBytes s.xb k bs⟩

/-- A command that raises, with the `check` behind it. -/
theorem issue_check_fails {i : Instr} {e : ErrorKind} {n : Nat} (hwf : i.wf = true)
    (hex : exec i (s.accept (encode i)) =
      .next (((s.accept (encode i)).drew n).raise e (encode i))) :
    Fails ((issue i).andThen check) s e := by
  have hissue : Leads (issue i) s () fun t => t.pend = none ∧ t.errcode = e.code ∧
      t.faults = s.faults ∧ t.inputs = s.inputs :=
    ⟨_, issue_of_exec h hwf hex, rfl, rfl, rfl, rfl⟩
  obtain ⟨-, -, hf0, hin0⟩ := h
  exact hissue.andThen_fails fun t ⟨hp, he, hf, hin⟩ =>
    check_fails hp he (hf.trans hf0) (hin.trans hin0)

end Commands

end Sys2Proof.Machine

/-! PROOFS. Sum, Concat, Validate and the two subtractors (43_host_combinators.md R241–R246), built
from the specs of the commands they issue. -/

namespace Sys2Proof.Machine

/-! Loading bytes and matrices. -/

theorem loadXB_leads {s : State} (h : Ready s) {bs : List Byte} (hl : bs.length ≤ 64) :
    Leads (loadXB bs 0) s () fun t =>
      Ready t ∧ HoldsBytes t.xb 0 bs ∧ t.m = s.m ∧ t.digest = s.digest := by
  have ⟨hp, _⟩ := h
  exact ⟨_, loadXB_eq hp bs (by omega), h, holdsBytes_writeBytes s.xb 0 bs, rfl, rfl⟩

/-- Bytes at the start of XB read as themselves. -/
theorem memRead_of_holdsBytes {s : State} {bs : List Byte} {n : Nat} (h : HoldsBytes s.xb 0 bs)
    (hn : n = bs.length) : s.memRead 0 n = bs := by
  rw [hn]
  exact memRead_eq s h

/-- An image in XB is fetched whole. -/
theorem fetchXB_image {s : State} (h : Ready s) {X : Mat} (hX : HoldsBytes s.xb 0 (enc64 X)) :
    Leads (fetchXB 64 0) s (enc64 X) Ready := by
  have hfetch := fetchXB_leads h (by simp) hX
  rwa [length_enc64] at hfetch

section Register

/-- M[r] holds X and counts as written. -/
def HoldsM (s : State) (r : MReg) (X : Mat) : Prop := s.m[r] = ⟨X, true⟩

variable {s t : State} {r q : MReg} {X Y : Mat}

theorem HoldsM.written (h : HoldsM s r X) : s.written (.m r) = true := by
  rw [State.written, h]

theorem HoldsM.readM (h : HoldsM s r X) : s.readM r = X := by
  rw [State.readM, h]

theorem holdsM_of_set (h : t.m = s.m.set r ⟨X, true⟩) : HoldsM t r X := by
  simp [HoldsM, h]

theorem HoldsM.of_set (hq : HoldsM s q Y) (h : t.m = s.m.set r ⟨X, true⟩) (hne : q ≠ r) :
    HoldsM t q Y := by
  have hval : r.val ≠ q.val := Fin.val_ne_of_ne hne.symm
  simpa [HoldsM, h, hval] using hq

end Register

section Matrix

variable {s : State} (h : Ready s)

include h

/-- An operand that decodes is loaded. -/
theorem loadMatrix_leads {bs : List Byte} {X : Mat} (hl : bs.length = 64) (hX : dec64 bs = some X)
    (md : MReg) :
    Leads (loadMatrix bs md) s () fun t => Ready t ∧ t.m = s.m.set md ⟨X, true⟩ := by
  refine (loadXB_leads h hl.le).andThen fun t ⟨ht, hbs, hm, _⟩ => ?_
  have hread : (t.accept (encode (.mdec md))).bufferBytes = bs := memRead_of_holdsBytes hbs hl.symm
  refine (issue_writeM ht rfl (exec_mdec_some _ (hread ▸ hX))).andThen fun u ⟨hu, hum⟩ => ?_
  have ⟨_, he, _⟩ := hu
  exact ⟨_, check_of_noError he, hu, by rw [← hm]; exact hum⟩

/-- An operand that does not decode is MalformedEncoding. -/
theorem loadMatrix_fails {bs : List Byte} (hl : bs.length = 64) (hX : dec64 bs = none) (md : MReg) :
    Fails (loadMatrix bs md) s .malformedEncoding := by
  refine (loadXB_leads h hl.le).andThen_fails fun t ⟨ht, hbs, _, _⟩ => ?_
  have hread : (t.accept (encode (.mdec md))).bufferBytes = bs := memRead_of_holdsBytes hbs hl.symm
  exact issue_check_fails ht rfl (exec_mdec_none _ (hread ▸ hX))

theorem issue_mmul {md a b : MReg} {X Y : Mat} (hX : HoldsM s a X) (hY : HoldsM s b Y) :
    Leads (issue (.mmul md a b)) s () fun t => Ready t ∧ t.m = s.m.set md ⟨mulM X Y, true⟩ := by
  have hread : mulM (s.readM a) (s.readM b) = mulM X Y := by rw [hX.readM, hY.readM]
  rw [← hread]
  exact issue_writeM h (n := 0) rfl (exec_mmul (s.accept _) hX.written hY.written)

/-- M0 is emitted as its image. -/
theorem emitM0_leads {X : Mat} (hX : HoldsM s 0 X) : Leads emitM0 s (enc64 X) Ready := by
  have hread : s.readM 0 = X := hX.readM
  have hissue := issue_memWrite h (i := .menc 0) rfl (exec_menc (s.accept _) hX.written)
  refine hissue.andThen fun t ⟨ht, hbs⟩ => ?_
  exact fetchXB_image ht (hread ▸ hbs)

end Matrix

/-! Sum (R241). -/

/-- The digest after every chunk was loaded and absorbed. -/
theorem absorbChunks_leads {s : State} (h : Ready s) {cs : List (List Byte)}
    (hcs : ∀ c ∈ cs, c.length ≤ 64) :
    Leads (absorbChunks cs) s () fun t => Ready t ∧ t.digest = absorb s.digest cs.flatten := by
  induction cs generalizing s with
  | nil => exact leads_give ⟨h, rfl⟩
  | cons c cs ih =>
    obtain ⟨hc, hcs'⟩ := List.forall_mem_cons.mp hcs
    refine (loadXB_leads h hc).andThen fun t ⟨ht, hbs, _, hdig⟩ => ?_
    have hn : (BitVec.ofNat 7 c.length).toNat = c.length := by
      rw [BitVec.toNat_ofNat]
      omega
    have hread : ∀ w, (t.accept w).prefixBytes (BitVec.ofNat 7 c.length) = c := fun w =>
      memRead_of_holdsBytes hbs hn
    have hissue := issue_setDigest ht (i := .dabsb (BitVec.ofNat 7 c.length))
      (decide_eq_true (hn.trans_le hc)) (exec_dabsb_le _ (hn.trans_le hc))
    refine hissue.andThen fun u ⟨hu, hud⟩ => (?_ : Leads (absorbChunks cs) u () _)
    rw [hread, accept_digest, hdig] at hud
    rw [List.flatten_cons, absorb_append, ← hud]
    exact ih hu hcs'

theorem sumChunks_leads {s : State} (h : Ready s) {cs : List (List Byte)}
    (hcs : ∀ c ∈ cs, c.length ≤ 64) :
    Leads (sumChunks cs) s (enc64 (absorb I2 cs.flatten)) Ready := by
  refine (issue_setDigest h (n := 0) (i := .drst) rfl rfl).andThen fun t ⟨ht, htd⟩ => ?_
  refine (absorbChunks_leads ht hcs).andThen fun u ⟨hu, hud⟩ => ?_
  rw [htd] at hud
  refine (issue_memWrite hu (i := .dsum) rfl rfl).andThen fun v ⟨hv, hbs⟩ => ?_
  rw [accept_digest, hud] at hbs
  exact fetchXB_image hv hbs

/-- Cutting loses no byte, once the fuel covers the string. -/
theorem flatten_chunks64 {fuel : Nat} {bs : List Byte} (h : bs.length ≤ fuel) :
    (chunks64 fuel bs).flatten = bs := by
  induction fuel generalizing bs with
  | zero => simp [chunks64, List.length_eq_zero_iff.mp (Nat.le_zero.mp h)]
  | succ fuel ih =>
    unfold chunks64
    split
    · next he => simp [List.isEmpty_iff.mp he]
    · next he =>
      have hpos : 0 < bs.length := List.length_pos_iff.mpr fun hnil => he (by simp [hnil])
      rw [List.flatten_cons, ih (by rw [List.length_drop]; omega), List.take_append_drop]

theorem length_of_mem_chunks64 {fuel : Nat} {bs c : List Byte} (h : c ∈ chunks64 fuel bs) :
    c.length ≤ 64 := by
  induction fuel generalizing bs with
  | zero => cases h
  | succ fuel ih =>
    unfold chunks64 at h
    split at h
    · cases h
    · rcases List.mem_cons.mp h with rfl | h
      · exact List.length_take_le 64 bs
      · exact ih h

/-- Settles O57: DRST, the chunks one after the other, and the image of S; the cut joins up again.
-/
theorem sumReturnsDigestOfString : Obligations.SumReturnsDigestOfString := by
  refine fun s h => ⟨fun cs hcs => sumChunks_leads h hcs, fun bs => ?_⟩
  have hsum := sumChunks_leads h fun c (hc : c ∈ chunks64 bs.length bs) => length_of_mem_chunks64 hc
  rwa [flatten_chunks64 le_rfl] at hsum

/-! Concat (R242). -/

/-- A list of parts decodes when its head and its tail do. -/
theorem mapM_dec64_cons_eq_some {x : List Byte} {hs : List (List Byte)} {Ms : List Mat} :
    (x :: hs).mapM dec64 = some Ms ↔
      ∃ X Ms', dec64 x = some X ∧ hs.mapM dec64 = some Ms' ∧ X :: Ms' = Ms := by
  simp [List.mapM_cons, Option.bind_eq_some_iff]

/-- M0 is multiplied by each part in turn. -/
theorem foldParts_leads {s : State} (h : Ready s) {A : Mat} (hA : HoldsM s 0 A)
    {hs : List (List Byte)} (hl : ∀ x ∈ hs, x.length = 64) {Ms : List Mat}
    (hMs : hs.mapM dec64 = some Ms) :
    Leads (foldParts hs) s () fun t => Ready t ∧ HoldsM t 0 (Ms.foldl mulM A) := by
  induction hs generalizing s A Ms with
  | nil =>
    cases hMs
    exact leads_give ⟨h, hA⟩
  | cons x hs ih =>
    obtain ⟨hx, hl'⟩ := List.forall_mem_cons.mp hl
    obtain ⟨X, Ms', hX, hMs', rfl⟩ := mapM_dec64_cons_eq_some.mp hMs
    refine (loadMatrix_leads h hx hX 1).andThen fun t ⟨ht, htm⟩ => ?_
    refine (issue_mmul ht (hA.of_set htm (by decide)) (holdsM_of_set htm)).andThen
      fun u ⟨hu, hum⟩ => ?_
    exact ih hu (holdsM_of_set hum) hl' hMs'

/-- The first part that does not decode is MalformedEncoding. -/
theorem foldParts_fails {s : State} (h : Ready s) {A : Mat} (hA : HoldsM s 0 A)
    {hs : List (List Byte)} (hl : ∀ x ∈ hs, x.length = 64) (hnone : hs.mapM dec64 = none) :
    Fails (foldParts hs) s .malformedEncoding := by
  induction hs generalizing s A with
  | nil => cases hnone
  | cons x hs ih =>
    obtain ⟨hx, hl'⟩ := List.forall_mem_cons.mp hl
    cases hX : dec64 x with
    | none => exact (loadMatrix_fails h hx hX 1).andThen
    | some X =>
      refine (loadMatrix_leads h hx hX 1).andThen_fails fun t ⟨ht, htm⟩ => ?_
      refine (issue_mmul ht (hA.of_set htm (by decide)) (holdsM_of_set htm)).andThen_fails
        fun u ⟨hu, hum⟩ => ih hu (holdsM_of_set hum) hl' ?_
      cases hMs : hs.mapM dec64 with
      | none => rfl
      | some Ms => simp [mapM_dec64_cons_eq_some.mpr ⟨X, Ms, hX, hMs, rfl⟩] at hnone

section Concat

variable {s : State} {hs : List (List Byte)}

/-- The host's length check comes before any command. -/
theorem procConcat_of_badLength (h : ∃ x ∈ hs, x.length ≠ 64) :
    procConcat hs s = .error .malformedEncoding s :=
  if_pos (by simpa using h)

theorem procConcat_of_length (h : ∀ x ∈ hs, x.length = 64) :
    procConcat hs s = (issue (.mid 0)).andThen ((foldParts hs).andThen emitM0) s :=
  if_neg (by simpa using h)

theorem issue_mid (h : Ready s) :
    Leads (issue (.mid 0)) s () fun t => Ready t ∧ HoldsM t 0 I2 := by
  obtain ⟨t, ht, hready, htm⟩ := issue_writeM h (i := .mid 0) (n := 0) rfl rfl
  exact ⟨t, ht, hready, holdsM_of_set htm⟩

theorem procConcat_leads (h : Ready s) (hl : ∀ x ∈ hs, x.length = 64) {Ms : List Mat}
    (hMs : hs.mapM dec64 = some Ms) :
    Leads (procConcat hs) s (enc64 (Ms.foldl mulM I2)) Ready := by
  rw [Leads, procConcat_of_length hl]
  refine (issue_mid h).andThen fun t ⟨ht, hid⟩ => ?_
  exact (foldParts_leads ht hid hl hMs).andThen fun u ⟨hu, hprod⟩ =>
    emitM0_leads hu hprod

theorem procConcat_fails (h : Ready s) (hl : ∀ x ∈ hs, x.length = 64)
    (hnone : hs.mapM dec64 = none) : Fails (procConcat hs) s .malformedEncoding := by
  rw [Fails, procConcat_of_length hl]
  exact (issue_mid h).andThen_fails fun t ⟨ht, hid⟩ =>
    (foldParts_fails ht hid hl hnone).andThen

end Concat

/-- Settles O58: the length check, the product of the decoded parts, or the first part's error. -/
theorem concatReturnsProduct : Obligations.ConcatReturnsProduct := fun _ _ h =>
  ⟨procConcat_of_badLength, fun hl => ⟨fun _ => procConcat_leads h hl, procConcat_fails h hl⟩⟩

/-! Validate (R243). -/

section Validate

variable {s : State} {hs : List (List Byte)}

theorem procValidate_of_badLength (h : List Byte) (hl : ∃ x ∈ hs, x.length ≠ 64) :
    procValidate h hs s = .error .malformedEncoding s := by
  rw [procValidate, Proc.bind, procConcat_of_badLength hl]

theorem procValidate_leads (hr : Ready s) (h : List Byte) (hl : ∀ x ∈ hs, x.length = 64)
    {Ms : List Mat} (hMs : hs.mapM dec64 = some Ms) :
    Leads (procValidate h hs) s (h == enc64 (Ms.foldl mulM I2)) Ready :=
  (procConcat_leads hr hl hMs).bind fun t ht => by rw [BEq.comm]; exact leads_give ht

end Validate

/-- The images of two absorptions decode, and their product absorbs the joined string (R246). -/
theorem mapM_dec64_absorb (x y : List Byte) :
    [enc64 (absorb I2 x), enc64 (absorb I2 y)].mapM dec64 = some [absorb I2 x, absorb I2 y] := by
  simp [dec64_enc64]

/-- Settles O60: Concat, then the comparison; for two absorptions the product is the joined
string's. -/
theorem validateComparesWithProduct : Obligations.ValidateComparesWithProduct := by
  refine fun s h hs hr => ⟨procValidate_of_badLength h, fun hl => ⟨fun Ms =>
    procValidate_leads hr h hl, fun hnone => (procConcat_fails hr hl hnone).bind⟩, ?_⟩
  rintro x y rfl
  have hprod : [absorb I2 x, absorb I2 y].foldl mulM I2 = absorb I2 (x ++ y) := by
    rw [absorb_I2_append, List.foldl_cons, List.foldl_cons, List.foldl_nil, I2_mulM]
  exact hprod ▸ procValidate_leads hr h (by simp) (mapM_dec64_absorb x y)

/-! The subtractors (R244, R245). -/

section Subtract

variable {s : State} (hr : Ready s) {h a : List Byte} (hh : h.length = 64) (ha : a.length = 64)
  {A H : Mat}

include hr ha

theorem loadInverse_leads (hA : dec64 a = some A) (hdet : det A = .ofNat 1) :
    Leads (loadInverse a) s () fun t => Ready t ∧ HoldsM t 1 (inv2 A) := by
  refine (loadMatrix_leads hr ha hA 1).andThen fun t ⟨ht, htm⟩ => ?_
  have hM : HoldsM t 1 A := holdsM_of_set htm
  have hone : detIsOne (t.readM 1) = true := (detIsOne_iff _).mpr (hM.readM ▸ hdet)
  refine (issue_writeM (n := 0) ht rfl (exec_minv_one (t.accept _) hM.written hone)).andThen
    fun u ⟨hu, hum⟩ => ?_
  have ⟨_, he, _⟩ := hu
  have hinv : HoldsM u 1 (inv2 (t.readM 1)) := holdsM_of_set hum
  exact ⟨_, check_of_noError he, hu, hM.readM ▸ hinv⟩

/-- An operand to invert whose determinant is not 1 is InvalidArgument. -/
theorem loadInverse_fails_of_det (hA : dec64 a = some A) (hdet : det A ≠ .ofNat 1) :
    Fails (loadInverse a) s .invalidArgument := by
  refine (loadMatrix_leads hr ha hA 1).andThen_fails fun t ⟨ht, htm⟩ => ?_
  have hM : HoldsM t 1 A := holdsM_of_set htm
  have hother : detIsOne (t.readM 1) = false :=
    Bool.eq_false_iff.mpr (mt (detIsOne_iff _).mp (hM.readM ▸ hdet))
  exact issue_check_fails (n := 0) ht rfl (exec_minv_other (t.accept _) hM.written hother)

theorem loadInverse_fails_of_dec (hA : dec64 a = none) :
    Fails (loadInverse a) s .malformedEncoding :=
  (loadMatrix_fails hr ha hA 1).andThen

include hh

/-- Both operands of a subtractor are in place: the inverse in M1 and h's matrix in M2. -/
theorem loadOperands_leads {β : Type} {q : Proc β} {v : β} {Q : State → Prop}
    (hA : dec64 a = some A) (hdet : det A = .ofNat 1) (hH : dec64 h = some H)
    (hq : ∀ t, Ready t → HoldsM t 1 (inv2 A) → HoldsM t 2 H → Leads q t v Q) :
    Leads ((loadInverse a).andThen ((loadMatrix h 2).andThen q)) s v Q := by
  refine (loadInverse_leads hr ha hA hdet).andThen fun t ⟨ht, hinv⟩ => ?_
  exact (loadMatrix_leads ht hh hH 2).andThen fun u ⟨hu, hum⟩ =>
    hq u hu (hinv.of_set hum (by decide)) (holdsM_of_set hum)

/-- The second operand of a subtractor is checked behind the first. -/
theorem loadOperands_fails {β : Type} {q : Proc β} (hA : dec64 a = some A)
    (hdet : det A = .ofNat 1) (hH : dec64 h = none) :
    Fails ((loadInverse a).andThen ((loadMatrix h 2).andThen q)) s .malformedEncoding :=
  (loadInverse_leads hr ha hA hdet).andThen_fails fun _ ⟨ht, _⟩ =>
    (loadMatrix_fails ht hh hH 2).andThen

end Subtract

/-- The product of two registers, emitted through M0. -/
theorem emitProduct_leads {s : State} (h : Ready s) {a b : MReg} {X Y : Mat} (hX : HoldsM s a X)
    (hY : HoldsM s b Y) :
    Leads ((issue (.mmul 0 a b)).andThen emitM0) s (enc64 (mulM X Y)) Ready :=
  (issue_mmul h hX hY).andThen fun _ ⟨ht, htm⟩ => emitM0_leads ht (holdsM_of_set htm)

/-- Settles O59: the inverse, then the other operand, then their product on the side asked for; the
first check that fails is the error. -/
theorem subtractorsReturnQuotient : Obligations.SubtractorsReturnQuotient := by
  refine fun s h a hr hh ha => ⟨fun A H hA hH hdet => ⟨?_, ?_⟩, fun A hA hdet => ?_, ?_⟩
  · exact loadOperands_leads hr hh ha hA hdet hH fun t ht hM1 hM2 => emitProduct_leads ht hM1 hM2
  · exact loadOperands_leads hr hh ha hA hdet hH fun t ht hM1 hM2 => emitProduct_leads ht hM2 hM1
  · have hfail := loadInverse_fails_of_det hr ha hA hdet
    exact ⟨hfail.andThen, hfail.andThen⟩
  · rintro (hA | ⟨A, hA, hdet, hH⟩)
    · have hfail := loadInverse_fails_of_dec hr ha hA
      exact ⟨hfail.andThen, hfail.andThen⟩
    · exact ⟨loadOperands_fails hr hh ha hA hdet hH, loadOperands_fails hr hh ha hA hdet hH⟩

end Sys2Proof.Machine
